-- ==== Sys2Proof/Word.lean ====
section
/-! DEFINITION. The word and byte types of the machine (spec 00_scope.md R2, R5; 20_memory.md R40). -/

namespace Sys2Proof

/-- A register, the program counter, EPC, an address, an instruction: 16 bits (R2, R25, R40, R60). -/
abbrev Word := BitVec 16

/-- What one address names (R40, D2). -/
abbrev Byte := BitVec 8

end Sys2Proof
end

