-- ==== Sys2Proof/Machine/Flags.lean ====
section
/-! DEFINITION. Conditions. The hardware has NO flags (10_state.md R34): a condition is computed into a general
register by the set instructions (42_register_alu.md R141 to R145) or tested by a branch on one register
(43_branches.md R160 to R163). -/

namespace Sys2Proof.Machine

/-- Exactly 0x0001 for true and 0x0000 for false (R141). -/
def conditionWord (b : Bool) : Word := if b then 0x0001#16 else 0x0000#16

/-- SEQ: all 16 bits agree (R142). -/
def condEq (a b : Word) : Bool := a == b

/-- SLT: the exact comparison of the two's complement values (R143). -/
def condLt (a b : Word) : Bool := decide (a.toInt < b.toInt)

/-- SLE (R144). -/
def condLe (a b : Word) : Bool := decide (a.toInt ≤ b.toInt)

/-- SCO: the carry out of bit 15 of the unsigned sum (R145). -/
def carryOut (a b : Word) : Bool := decide (65536 ≤ a.toNat + b.toNat)

/-- BEQZ (R161). -/
def isZero (v : Word) : Bool := v == 0x0000#16

/-- BLTZ: bit 15 is 1 (R163). -/
def isNegative (v : Word) : Bool := v.getLsbD 15

end Sys2Proof.Machine
end

