-- ==== Sys2Proof/Config.lean ====
section
/-! DEFINITION. The parameters of the machine (spec 00_scope.md R3, 92_eei_decisions.md): the two OPEN
parameters a launch chooses (`Config`), and the fixed ones. No instruction changes any of them. -/

namespace Sys2Proof

/-- `BYTE_ORDER` (R48, D4): which byte of a word stands at the lower address. -/
inductive ByteOrder where
  | big
  | little
  deriving DecidableEq, Repr

/-- The parameters R231(c) says a launch supplies. -/
structure Config where
  /-- `BYTE_ORDER` (R48). -/
  byteOrder : ByteOrder
  /-- `EXC_SUPPORT` (R192): the optional part (SIIC, RTI, EPC) is built. -/
  excSupport : Bool
  deriving DecidableEq, Repr

/-- The defaults of R3: big-endian (D4), the optional part present (D12). -/
def Config.default : Config := { byteOrder := .big, excSupport := true }

/-- `RESET_PC` (R3, R30, D8). -/
def resetPc : Word := 0x0000#16

/-- `MEM_BYTES` (R3, R40, D2): addresses are the numbers below this. -/
def memBytes : Nat := 65536

/-- DESIGN CHOICE (log entry 1, unsafe): the value every general register holds at `State.reset`.
The spec gives none (R31, D9) and lets a launch supply values (`INIT_REGS`). -/
def resetRegister : Word := 0x0000#16

/-- DESIGN CHOICE (log entry 2, unsafe): the value EPC holds at reset. The spec gives none (R32, D10). -/
def resetEpc : Word := 0x0000#16

end Sys2Proof
end

