-- ==== Sys2Proof/Syntax.lean ====
section
/-! DEFINITION. The instructions: one constructor per row of spec/opcode_table.json, operands in the order of
the assembly syntax (30_encoding.md R75, R76), each field at the width the encoding gives it (R62 to R67).
Don't-care bits (R70) are no part of an instruction. -/

namespace Sys2Proof

/-- The eight general registers, named by field value (10_state.md R20, D22). -/
inductive Reg where
  | r0 | r1 | r2 | r3 | r4 | r5 | r6 | r7
  deriving DecidableEq, Repr

/-- The link register (R23). -/
def Reg.link : Reg := .r7

/-- An instruction of WISC-SP12 (30_encoding.md R68). Immediates and displacements are the bits of the field;
how each is extended is the machine's affair (R67). -/
inductive Instr where
  -- 46_special.md, and RET of 45_jumps.md: no operand fields (R66)
  | halt
  | nop
  | siic
  | rti
  -- J-format (R62) and I-format 2 (R64) jumps, 45_jumps.md
  | j (disp : BitVec 11)
  | jr (rs : Reg) (imm : BitVec 8)
  | jal (disp : BitVec 11)
  | jalr (rs : Reg) (imm : BitVec 8)
  -- I-format 1 (R63) arithmetic and logic, 40_immediate_alu.md
  | addi (rd rs : Reg) (imm : BitVec 5)
  | subi (rd rs : Reg) (imm : BitVec 5)
  | ori (rd rs : Reg) (imm : BitVec 5)
  | andi (rd rs : Reg) (imm : BitVec 5)
  -- I-format 2 branches, 43_branches.md
  | beqz (rs : Reg) (imm : BitVec 8)
  | bnez (rs : Reg) (imm : BitVec 8)
  | ret
  | bltz (rs : Reg) (imm : BitVec 8)
  -- I-format 1 memory, 41_load_store.md (`rd` is the data register, `rs` the base), and SLBI of 44_load_immediate.md
  | st (rd rs : Reg) (imm : BitVec 5)
  | ld (rd rs : Reg) (imm : BitVec 5)
  | slbi (rs : Reg) (imm : BitVec 8)
  | stu (rd rs : Reg) (imm : BitVec 5)
  -- I-format 1 shifts and rotates, 40_immediate_alu.md
  | roli (rd rs : Reg) (imm : BitVec 5)
  | slli (rd rs : Reg) (imm : BitVec 5)
  | rori (rd rs : Reg) (imm : BitVec 5)
  | srai (rd rs : Reg) (imm : BitVec 5)
  -- LBI of 44_load_immediate.md
  | lbi (rs : Reg) (imm : BitVec 8)
  -- R-format (R65), 42_register_alu.md
  | btr (rd rs : Reg)
  | rol (rd rs rt : Reg)
  | sll (rd rs rt : Reg)
  | ror (rd rs rt : Reg)
  | sra (rd rs rt : Reg)
  | add (rd rs rt : Reg)
  | sub (rd rs rt : Reg)
  | or (rd rs rt : Reg)
  | and (rd rs rt : Reg)
  | seq (rd rs rt : Reg)
  | slt (rd rs rt : Reg)
  | sle (rd rs rt : Reg)
  | sco (rd rs rt : Reg)
  deriving DecidableEq, Repr

/-- The row of spec/opcode_table.json an instruction belongs to. -/
def Instr.mnemonic : Instr → String
  | .halt => "HALT"
  | .nop => "NOP"
  | .siic => "SIIC"
  | .rti => "RTI"
  | .j _ => "J"
  | .jr _ _ => "JR"
  | .jal _ => "JAL"
  | .jalr _ _ => "JALR"
  | .addi _ _ _ => "ADDI"
  | .subi _ _ _ => "SUBI"
  | .ori _ _ _ => "ORI"
  | .andi _ _ _ => "ANDI"
  | .beqz _ _ => "BEQZ"
  | .bnez _ _ => "BNEZ"
  | .ret => "RET"
  | .bltz _ _ => "BLTZ"
  | .st _ _ _ => "ST"
  | .ld _ _ _ => "LD"
  | .slbi _ _ => "SLBI"
  | .stu _ _ _ => "STU"
  | .roli _ _ _ => "ROLI"
  | .slli _ _ _ => "SLLI"
  | .rori _ _ _ => "RORI"
  | .srai _ _ _ => "SRAI"
  | .lbi _ _ => "LBI"
  | .btr _ _ => "BTR"
  | .rol _ _ _ => "ROL"
  | .sll _ _ _ => "SLL"
  | .ror _ _ _ => "ROR"
  | .sra _ _ _ => "SRA"
  | .add _ _ _ => "ADD"
  | .sub _ _ _ => "SUB"
  | .or _ _ _ => "OR"
  | .and _ _ _ => "AND"
  | .seq _ _ _ => "SEQ"
  | .slt _ _ _ => "SLT"
  | .sle _ _ _ => "SLE"
  | .sco _ _ _ => "SCO"

end Sys2Proof
end

