-- ==== Sys2Proof/WellFormed.lean ====
section
/-! DEFINITION. Which instructions a built machine's instruction set has (spec 00_scope.md R1, 46_special.md R192).

Every field of `Instr` is typed at the width of its encoding, and every value of every field is legal
(30_encoding.md R69), so no operand of an instruction can be ill-formed. What can be wrong is the membership:
SIIC and RTI are the optional part, and a machine built without it has neither instruction. -/

namespace Sys2Proof

/-- The 36 instructions of the base part: every row but SIIC and RTI (R1). -/
def Instr.inBasePart : Instr → Bool
  | .halt => true
  | .nop => true
  | .siic => false
  | .rti => false
  | .j _ => true
  | .jr _ _ => true
  | .jal _ => true
  | .jalr _ _ => true
  | .addi _ _ _ => true
  | .subi _ _ _ => true
  | .ori _ _ _ => true
  | .andi _ _ _ => true
  | .beqz _ _ => true
  | .bnez _ _ => true
  | .ret => true
  | .bltz _ _ => true
  | .st _ _ _ => true
  | .ld _ _ _ => true
  | .slbi _ _ => true
  | .stu _ _ _ => true
  | .roli _ _ _ => true
  | .slli _ _ _ => true
  | .rori _ _ _ => true
  | .srai _ _ _ => true
  | .lbi _ _ => true
  | .btr _ _ => true
  | .rol _ _ _ => true
  | .sll _ _ _ => true
  | .ror _ _ _ => true
  | .sra _ _ _ => true
  | .add _ _ _ => true
  | .sub _ _ _ => true
  | .or _ _ _ => true
  | .and _ _ _ => true
  | .seq _ _ _ => true
  | .slt _ _ _ => true
  | .sle _ _ _ => true
  | .sco _ _ _ => true

/-- The instruction is one the built machine has: of the base part, or the optional part is built (R1, R192).
The WORD of an instruction the machine lacks is still a word it can fetch: opcode `00011` then acts as a NOP
(R196) and opcode `00010` is refused (R194). -/
def WellFormed (c : Config) (i : Instr) : Bool :=
  c.excSupport || i.inBasePart

end Sys2Proof
end

