-- ==== Sys2Proof/Decode.lean ====
section
/-! DEFINITION. The encoding (spec 30_encoding.md): bytes and words, the fields of the four formats, the decoder,
the encoder, the opcode table as masks and values, and the assembly text. Bit 15 is the leftmost character of a
pattern of the spec (00_scope.md R4). -/

namespace Sys2Proof

/-! ## Bytes of a word (20_memory.md R44, R45, R48) -/

/-- The word whose byte at the lower address is `lo` and whose byte at the next address is `hi`. -/
def wordOfBytes (o : ByteOrder) (lo hi : Byte) : Word :=
  match o with
  | .big => lo ++ hi
  | .little => hi ++ lo

/-- The byte of `w` that stands at the lower (even) address. -/
def lowAddressByte (o : ByteOrder) (w : Word) : Byte :=
  match o with
  | .big => w.extractLsb' 8 8
  | .little => w.extractLsb' 0 8

/-- The byte of `w` that stands at the higher (odd) address. -/
def highAddressByte (o : ByteOrder) (w : Word) : Byte :=
  match o with
  | .big => w.extractLsb' 0 8
  | .little => w.extractLsb' 8 8

/-! ## Register fields (10_state.md R20) -/

/-- The 3-bit field value that names a register. -/
def Reg.bits : Reg → BitVec 3
  | .r0 => 0b000#3
  | .r1 => 0b001#3
  | .r2 => 0b010#3
  | .r3 => 0b011#3
  | .r4 => 0b100#3
  | .r5 => 0b101#3
  | .r6 => 0b110#3
  | .r7 => 0b111#3

/-- The register a 3-bit field names: all eight values are registers (R20, R69). -/
def Reg.ofBits (b : BitVec 3) : Reg :=
  match b.getLsbD 2, b.getLsbD 1, b.getLsbD 0 with
  | false, false, false => .r0
  | false, false, true => .r1
  | false, true, false => .r2
  | false, true, true => .r3
  | true, false, false => .r4
  | true, false, true => .r5
  | true, true, false => .r6
  | true, true, true => .r7

/-! ## Fields of the formats (R61 to R65) -/

/-- Bits 15:11, the opcode of every format (R61). -/
def opcodeField (w : Word) : BitVec 5 := w.extractLsb' 11 5

/-- Bits 10:8: `Rs` of I-format 1, I-format 2 and the R-format (R63, R64, R65). -/
def rsField (w : Word) : Reg := Reg.ofBits (w.extractLsb' 8 3)

/-- Bits 7:5: `Rd` of I-format 1, `Rt` of the R-format (R63, R65). -/
def midField (w : Word) : Reg := Reg.ofBits (w.extractLsb' 5 3)

/-- Bits 4:2: `Rd` of the R-format (R65). -/
def rdFieldR (w : Word) : Reg := Reg.ofBits (w.extractLsb' 2 3)

/-- Bits 4:0: the immediate of I-format 1 (R63). -/
def imm5Field (w : Word) : BitVec 5 := w.extractLsb' 0 5

/-- Bits 7:0: the immediate of I-format 2 (R64). -/
def imm8Field (w : Word) : BitVec 8 := w.extractLsb' 0 8

/-- Bits 10:0: the displacement of the J-format (R62). -/
def dispField (w : Word) : BitVec 11 := w.extractLsb' 0 11

/-! ## The decoder (R68, R69) -/

/-- Opcode `11010`: `funct` (bits 1:0) chooses ROL, SLL, ROR or SRA (R68). -/
def decodeShift (w : Word) : Instr :=
  match w.getLsbD 1, w.getLsbD 0 with
  | false, false => .rol (rdFieldR w) (rsField w) (midField w)
  | false, true => .sll (rdFieldR w) (rsField w) (midField w)
  | true, false => .ror (rdFieldR w) (rsField w) (midField w)
  | true, true => .sra (rdFieldR w) (rsField w) (midField w)

/-- Opcode `11011`: `funct` (bits 1:0) chooses ADD, SUB, OR or AND (R68). -/
def decodeArith (w : Word) : Instr :=
  match w.getLsbD 1, w.getLsbD 0 with
  | false, false => .add (rdFieldR w) (rsField w) (midField w)
  | false, true => .sub (rdFieldR w) (rsField w) (midField w)
  | true, false => .or (rdFieldR w) (rsField w) (midField w)
  | true, true => .and (rdFieldR w) (rsField w) (midField w)

/-- The instruction a word is: the map of R68, one line per opcode, bits 15 to 11 in order. Every word is an
instruction (R69); the bits R70 calls don't-care are not looked at. -/
def decodeWord (w : Word) : Instr :=
  match w.getLsbD 15, w.getLsbD 14, w.getLsbD 13, w.getLsbD 12, w.getLsbD 11 with
  | false, false, false, false, false => .halt
  | false, false, false, false, true => .nop
  | false, false, false, true, false => .siic
  | false, false, false, true, true => .rti
  | false, false, true, false, false => .j (dispField w)
  | false, false, true, false, true => .jr (rsField w) (imm8Field w)
  | false, false, true, true, false => .jal (dispField w)
  | false, false, true, true, true => .jalr (rsField w) (imm8Field w)
  | false, true, false, false, false => .addi (midField w) (rsField w) (imm5Field w)
  | false, true, false, false, true => .subi (midField w) (rsField w) (imm5Field w)
  | false, true, false, true, false => .ori (midField w) (rsField w) (imm5Field w)
  | false, true, false, true, true => .andi (midField w) (rsField w) (imm5Field w)
  | false, true, true, false, false => .beqz (rsField w) (imm8Field w)
  | false, true, true, false, true => .bnez (rsField w) (imm8Field w)
  | false, true, true, true, false => .ret
  | false, true, true, true, true => .bltz (rsField w) (imm8Field w)
  | true, false, false, false, false => .st (midField w) (rsField w) (imm5Field w)
  | true, false, false, false, true => .ld (midField w) (rsField w) (imm5Field w)
  | true, false, false, true, false => .slbi (rsField w) (imm8Field w)
  | true, false, false, true, true => .stu (midField w) (rsField w) (imm5Field w)
  | true, false, true, false, false => .roli (midField w) (rsField w) (imm5Field w)
  | true, false, true, false, true => .slli (midField w) (rsField w) (imm5Field w)
  | true, false, true, true, false => .rori (midField w) (rsField w) (imm5Field w)
  | true, false, true, true, true => .srai (midField w) (rsField w) (imm5Field w)
  | true, true, false, false, false => .lbi (rsField w) (imm8Field w)
  | true, true, false, false, true => .btr (rdFieldR w) (rsField w)
  | true, true, false, true, false => decodeShift w
  | true, true, false, true, true => decodeArith w
  | true, true, true, false, false => .seq (rdFieldR w) (rsField w) (midField w)
  | true, true, true, false, true => .slt (rdFieldR w) (rsField w) (midField w)
  | true, true, true, true, false => .sle (rdFieldR w) (rsField w) (midField w)
  | true, true, true, true, true => .sco (rdFieldR w) (rsField w) (midField w)

/-- The only bytes that are no instruction: fewer than the two an instruction takes (R60, R69). -/
inductive DecodeError where
  /-- `have_` bytes were given, and an instruction is two. -/
  | truncated (have_ : Nat)
  deriving DecidableEq, Repr

/-- Read one instruction from the front of a list of bytes, lowest address first; answers what is left. -/
def decode (o : ByteOrder) : List Byte → Except DecodeError (Instr × List Byte)
  | [] => .error (.truncated 0)
  | [_] => .error (.truncated 1)
  | b0 :: b1 :: rest => .ok (decodeWord (wordOfBytes o b0 b1), rest)

/-! ## The encoder (R61 to R66; don't-care bits assembled as 0, R78 (d)) -/

/-- J-format (R62). -/
def encodeJ (op : BitVec 5) (d : BitVec 11) : Word := op ++ d

/-- I-format 1: `Rs` before `Rd` (R63). -/
def encodeI1 (op : BitVec 5) (rs rd : Reg) (i : BitVec 5) : Word := op ++ rs.bits ++ rd.bits ++ i

/-- I-format 2 (R64). -/
def encodeI2 (op : BitVec 5) (rs : Reg) (i : BitVec 8) : Word := op ++ rs.bits ++ i

/-- R-format, the `Rt` position given as bits because BTR leaves it don't-care (R65). -/
def encodeR (op : BitVec 5) (rs : Reg) (mid : BitVec 3) (rd : Reg) (funct : BitVec 2) : Word :=
  op ++ rs.bits ++ mid ++ rd.bits ++ funct

/-- The five instructions with no operand field (R66). -/
def encodeBare (op : BitVec 5) : Word := op ++ 0b00000000000#11

/-- The word an assembler emits for an instruction. -/
def encode : Instr → Word
  | .halt => encodeBare 0b00000#5
  | .nop => encodeBare 0b00001#5
  | .siic => encodeBare 0b00010#5
  | .rti => encodeBare 0b00011#5
  | .j d => encodeJ 0b00100#5 d
  | .jr rs i => encodeI2 0b00101#5 rs i
  | .jal d => encodeJ 0b00110#5 d
  | .jalr rs i => encodeI2 0b00111#5 rs i
  | .addi rd rs i => encodeI1 0b01000#5 rs rd i
  | .subi rd rs i => encodeI1 0b01001#5 rs rd i
  | .ori rd rs i => encodeI1 0b01010#5 rs rd i
  | .andi rd rs i => encodeI1 0b01011#5 rs rd i
  | .beqz rs i => encodeI2 0b01100#5 rs i
  | .bnez rs i => encodeI2 0b01101#5 rs i
  | .ret => encodeBare 0b01110#5
  | .bltz rs i => encodeI2 0b01111#5 rs i
  | .st rd rs i => encodeI1 0b10000#5 rs rd i
  | .ld rd rs i => encodeI1 0b10001#5 rs rd i
  | .slbi rs i => encodeI2 0b10010#5 rs i
  | .stu rd rs i => encodeI1 0b10011#5 rs rd i
  | .roli rd rs i => encodeI1 0b10100#5 rs rd i
  | .slli rd rs i => encodeI1 0b10101#5 rs rd i
  | .rori rd rs i => encodeI1 0b10110#5 rs rd i
  | .srai rd rs i => encodeI1 0b10111#5 rs rd i
  | .lbi rs i => encodeI2 0b11000#5 rs i
  | .btr rd rs => encodeR 0b11001#5 rs 0b000#3 rd 0b00#2
  | .rol rd rs rt => encodeR 0b11010#5 rs rt.bits rd 0b00#2
  | .sll rd rs rt => encodeR 0b11010#5 rs rt.bits rd 0b01#2
  | .ror rd rs rt => encodeR 0b11010#5 rs rt.bits rd 0b10#2
  | .sra rd rs rt => encodeR 0b11010#5 rs rt.bits rd 0b11#2
  | .add rd rs rt => encodeR 0b11011#5 rs rt.bits rd 0b00#2
  | .sub rd rs rt => encodeR 0b11011#5 rs rt.bits rd 0b01#2
  | .or rd rs rt => encodeR 0b11011#5 rs rt.bits rd 0b10#2
  | .and rd rs rt => encodeR 0b11011#5 rs rt.bits rd 0b11#2
  | .seq rd rs rt => encodeR 0b11100#5 rs rt.bits rd 0b00#2
  | .slt rd rs rt => encodeR 0b11101#5 rs rt.bits rd 0b00#2
  | .sle rd rs rt => encodeR 0b11110#5 rs rt.bits rd 0b00#2
  | .sco rd rs rt => encodeR 0b11111#5 rs rt.bits rd 0b00#2

/-- `siic Rs` as the spec's listings assemble it: the ignored register in bits 10:8 (R77, R78 (d), D21). -/
def encodeSiic (dummy : Reg) : Word := encodeI2 0b00010#5 dummy 0x00#8

/-- The bytes of an instruction in memory, lowest address first (R60). -/
def encodeBytes (o : ByteOrder) (i : Instr) : List Byte :=
  [lowAddressByte o (encode i), highAddressByte o (encode i)]

/-- The instruction the decoder reads from the bytes a table word lays down, in the default byte order (R3). -/
def decodeTableWord (nbits w : Nat) : Option Instr :=
  let word : Word := BitVec.ofNat 16 (w % 2 ^ nbits)
  let o := Config.default.byteOrder
  match decode o [lowAddressByte o word, highAddressByte o word] with
  | .ok (i, _) => some i
  | .error _ => none

/-! ## The opcode table (R68, spec/opcode_table.json) and the don't-care bits (R70) -/

/-- One row: the words `w` with `w &&& mask = value` are the instruction, and the bits of `dontCare` are ignored. -/
structure OpcodeRow where
  mnemonic : String
  value : Word
  mask : Word
  dontCare : Word
  deriving DecidableEq, Repr

/-- Rows of opcodes 00000 to 00111. -/
def opcodeRows0 : List OpcodeRow :=
  [⟨"HALT", 0x0000#16, 0xF800#16, 0x07FF#16⟩, ⟨"NOP", 0x0800#16, 0xF800#16, 0x07FF#16⟩,
   ⟨"SIIC", 0x1000#16, 0xF800#16, 0x07FF#16⟩, ⟨"RTI", 0x1800#16, 0xF800#16, 0x07FF#16⟩,
   ⟨"J", 0x2000#16, 0xF800#16, 0x0000#16⟩, ⟨"JR", 0x2800#16, 0xF800#16, 0x0000#16⟩,
   ⟨"JAL", 0x3000#16, 0xF800#16, 0x0000#16⟩, ⟨"JALR", 0x3800#16, 0xF800#16, 0x0000#16⟩]

/-- Rows of opcodes 01000 to 01111. -/
def opcodeRows1 : List OpcodeRow :=
  [⟨"ADDI", 0x4000#16, 0xF800#16, 0x0000#16⟩, ⟨"SUBI", 0x4800#16, 0xF800#16, 0x0000#16⟩,
   ⟨"ORI", 0x5000#16, 0xF800#16, 0x0000#16⟩, ⟨"ANDI", 0x5800#16, 0xF800#16, 0x0000#16⟩,
   ⟨"BEQZ", 0x6000#16, 0xF800#16, 0x0000#16⟩, ⟨"BNEZ", 0x6800#16, 0xF800#16, 0x0000#16⟩,
   ⟨"RET", 0x7000#16, 0xF800#16, 0x07FF#16⟩, ⟨"BLTZ", 0x7800#16, 0xF800#16, 0x0000#16⟩]

/-- Rows of opcodes 10000 to 10111. Bit 4 of a shift immediate stays an operand bit here; that it has no effect
is the machine's affair (R109). -/
def opcodeRows2 : List OpcodeRow :=
  [⟨"ST", 0x8000#16, 0xF800#16, 0x0000#16⟩, ⟨"LD", 0x8800#16, 0xF800#16, 0x0000#16⟩,
   ⟨"SLBI", 0x9000#16, 0xF800#16, 0x0000#16⟩, ⟨"STU", 0x9800#16, 0xF800#16, 0x0000#16⟩,
   ⟨"ROLI", 0xA000#16, 0xF800#16, 0x0000#16⟩, ⟨"SLLI", 0xA800#16, 0xF800#16, 0x0000#16⟩,
   ⟨"RORI", 0xB000#16, 0xF800#16, 0x0000#16⟩, ⟨"SRAI", 0xB800#16, 0xF800#16, 0x0000#16⟩]

/-- Rows of opcodes 11000 to 11011. -/
def opcodeRows3 : List OpcodeRow :=
  [⟨"LBI", 0xC000#16, 0xF800#16, 0x0000#16⟩, ⟨"BTR", 0xC800#16, 0xF800#16, 0x00E3#16⟩,
   ⟨"ROL", 0xD000#16, 0xF803#16, 0x0000#16⟩, ⟨"SLL", 0xD001#16, 0xF803#16, 0x0000#16⟩,
   ⟨"ROR", 0xD002#16, 0xF803#16, 0x0000#16⟩, ⟨"SRA", 0xD003#16, 0xF803#16, 0x0000#16⟩,
   ⟨"ADD", 0xD800#16, 0xF803#16, 0x0000#16⟩, ⟨"SUB", 0xD801#16, 0xF803#16, 0x0000#16⟩,
   ⟨"OR", 0xD802#16, 0xF803#16, 0x0000#16⟩, ⟨"AND", 0xD803#16, 0xF803#16, 0x0000#16⟩]

/-- Rows of opcodes 11100 to 11111. -/
def opcodeRows4 : List OpcodeRow :=
  [⟨"SEQ", 0xE000#16, 0xF800#16, 0x0003#16⟩, ⟨"SLT", 0xE800#16, 0xF800#16, 0x0003#16⟩,
   ⟨"SLE", 0xF000#16, 0xF800#16, 0x0003#16⟩, ⟨"SCO", 0xF800#16, 0xF800#16, 0x0003#16⟩]

/-- The 38 rows of R68. -/
def opcodeTable : List OpcodeRow :=
  opcodeRows0 ++ opcodeRows1 ++ opcodeRows2 ++ opcodeRows3 ++ opcodeRows4

/-- The word belongs to the row. -/
def OpcodeRow.holds (r : OpcodeRow) (w : Word) : Prop := w &&& r.mask = r.value

/-- The don't-care bits of an instruction's encoding, by opcode (R70, U1). -/
def dontCareBits : Instr → Word
  | .halt | .nop | .siic | .rti | .ret => 0x07FF#16
  | .btr _ _ => 0x00E3#16
  | .seq _ _ _ | .slt _ _ _ | .sle _ _ _ | .sco _ _ _ => 0x0003#16
  | .j _ | .jr _ _ | .jal _ | .jalr _ _ | .addi _ _ _ | .subi _ _ _ | .ori _ _ _ | .andi _ _ _
  | .beqz _ _ | .bnez _ _ | .bltz _ _ | .st _ _ _ | .ld _ _ _ | .slbi _ _ | .stu _ _ _
  | .roli _ _ _ | .slli _ _ _ | .rori _ _ _ | .srai _ _ _ | .lbi _ _
  | .rol _ _ _ | .sll _ _ _ | .ror _ _ _ | .sra _ _ _
  | .add _ _ _ | .sub _ _ _ | .or _ _ _ | .and _ _ _ => 0x0000#16

/-! ## Assembly text (R75 to R78) -/

/-- `R0` to `R7` (R78 (a)). -/
def Reg.name : Reg → String
  | .r0 => "R0"
  | .r1 => "R1"
  | .r2 => "R2"
  | .r3 => "R3"
  | .r4 => "R4"
  | .r5 => "R5"
  | .r6 => "R6"
  | .r7 => "R7"

/-- `OP Rd, Rs, immediate`. -/
def asmRRI (op : String) (rd rs : Reg) (i : Int) : String :=
  op ++ " " ++ rd.name ++ ", " ++ rs.name ++ ", " ++ toString i

/-- `OP Rs, immediate`. -/
def asmRI (op : String) (rs : Reg) (i : Int) : String :=
  op ++ " " ++ rs.name ++ ", " ++ toString i

/-- `OP Rd, Rs, Rt`. -/
def asmRRR (op : String) (rd rs rt : Reg) : String :=
  op ++ " " ++ rd.name ++ ", " ++ rs.name ++ ", " ++ rt.name

/-- An instruction in the source's syntax, `Rd` first (R75, R76); an immediate is the number its extension gives
(R67, R78 (c)), and SIIC's dummy operand is written R0 (R77). -/
def Instr.assembly : Instr → String
  | .halt => "HALT"
  | .nop => "NOP"
  | .siic => "SIIC R0"
  | .rti => "RTI"
  | .j d => "J " ++ toString d.toInt
  | .jr rs i => asmRI "JR" rs i.toInt
  | .jal d => "JAL " ++ toString d.toInt
  | .jalr rs i => asmRI "JALR" rs i.toInt
  | .addi rd rs i => asmRRI "ADDI" rd rs i.toInt
  | .subi rd rs i => asmRRI "SUBI" rd rs i.toInt
  | .ori rd rs i => asmRRI "ORI" rd rs i.toNat
  | .andi rd rs i => asmRRI "ANDI" rd rs i.toNat
  | .beqz rs i => asmRI "BEQZ" rs i.toInt
  | .bnez rs i => asmRI "BNEZ" rs i.toInt
  | .ret => "RET"
  | .bltz rs i => asmRI "BLTZ" rs i.toInt
  | .st rd rs i => asmRRI "ST" rd rs i.toInt
  | .ld rd rs i => asmRRI "LD" rd rs i.toInt
  | .slbi rs i => asmRI "SLBI" rs i.toNat
  | .stu rd rs i => asmRRI "STU" rd rs i.toInt
  | .roli rd rs i => asmRRI "ROLI" rd rs i.toNat
  | .slli rd rs i => asmRRI "SLLI" rd rs i.toNat
  | .rori rd rs i => asmRRI "RORI" rd rs i.toNat
  | .srai rd rs i => asmRRI "SRAI" rd rs i.toNat
  | .lbi rs i => asmRI "LBI" rs i.toInt
  | .btr rd rs => "BTR " ++ rd.name ++ ", " ++ rs.name
  | .rol rd rs rt => asmRRR "ROL" rd rs rt
  | .sll rd rs rt => asmRRR "SLL" rd rs rt
  | .ror rd rs rt => asmRRR "ROR" rd rs rt
  | .sra rd rs rt => asmRRR "SRA" rd rs rt
  | .add rd rs rt => asmRRR "ADD" rd rs rt
  | .sub rd rs rt => asmRRR "SUB" rd rs rt
  | .or rd rs rt => asmRRR "OR" rd rs rt
  | .and rd rs rt => asmRRR "AND" rd rs rt
  | .seq rd rs rt => asmRRR "SEQ" rd rs rt
  | .slt rd rs rt => asmRRR "SLT" rd rs rt
  | .sle rd rs rt => asmRRR "SLE" rd rs rt
  | .sco rd rs rt => asmRRR "SCO" rd rs rt

end Sys2Proof
end

