-- ==== Sys2Proof/Machine/State.lean ====
section
/-! DEFINITION. The state of the machine (spec 10_state.md), the reasons a step can stop (60_exceptions.md R211),
and the state after reset (R30 to R33, R230, R231). -/

namespace Sys2Proof.Machine

/-- Memory: the bytes that have a value, by address, addresses strictly rising (R33, R40). An address that is
not listed has NO VALUE, so no entry can say what an unlisted address reads as. -/
abbrev Memory := List Host.Cell

/-- A set of byte addresses, strictly rising. -/
abbrev AddrSet := List Nat

/-- The whole state (10_state.md section 1, R36). -/
structure State where
  /-- The parameters the launch chose (R231 (c)); no instruction reads them but through the rules they select,
  and none writes them. -/
  config : Config
  /-- R0 to R7 (R20, R21). -/
  regs : Vector Word 8
  /-- The program counter, a byte address (R25). -/
  pc : Word
  /-- The exception program counter (R32). Without the optional part nothing reads or writes it. -/
  epc : Word
  /-- HALT has executed (R30, R190). -/
  halted : Bool
  /-- `Mem` (R33, R40). -/
  mem : Memory
  /-- `Stored`: the byte addresses ST or STU has written since reset (R45, R53). -/
  stored : AddrSet
  deriving DecidableEq, Repr

/-- Model faults (R211): the spec gives the step no meaning and no handler runs. `UninitRegister` and `UninitEPC`
of R211 are absent because every register holds a value at launch (log entries 1 and 2). -/
inductive Fault where
  /-- Raised by LD, ST and STU at an odd effective address (R46, D5); nothing is written. Safe. -/
  | misalignedData (addr : Word)
  /-- Raised by the fetch of a step that begins with an odd pc (R47, D6). Safe. -/
  | misalignedFetch (pc : Word)
  /-- Raised by LD or the fetch where a byte of the word at `addr` has no value (R33, R44, D11). Safe. -/
  | uninitMemory (addr : Word)
  /-- Raised by a step from a halted state: there is no such step (R7, R190, U14). A stuck state and no failure
  of the run. Safe. -/
  | halted
  deriving DecidableEq, Repr

/-- Refusals (R211): the spec declines to give the step a meaning. -/
inductive Refusal where
  /-- Raised by an arm of `exec` whose instruction has no meaning yet. Safe. No arm raises it now. -/
  | notModelled (mnemonic : String)
  /-- Raised by the fetch where ST or STU has written a byte of the word at `pc` (R53, D7). Safe. -/
  | selfModifyingCode (pc : Word)
  /-- Raised by SIIC at `pc` when the optional part is not built (R194, D12). Safe. -/
  | siicUnsupported (pc : Word)
  deriving DecidableEq, Repr

/-- A launch (R230, R231): the parameters, a value for each register (`INIT_REGS` given in full, log entry 1),
EPC (log entry 2), and the image. -/
def State.launch (c : Config) (initRegs : Vector Word 8) (initEpc : Word) (image : Memory) : State where
  config := c
  regs := initRegs
  pc := resetPc
  epc := initEpc
  halted := false
  mem := image
  stored := []

/-- The machine right after reset: the launch with the default parameters, no image, and the register values
that log entries 1 and 2 name. -/
def State.reset : State :=
  State.launch Config.default (Vector.replicate 8 resetRegister) resetEpc []

end Sys2Proof.Machine
end

