-- ==== Sys2Proof/Machine/Ops.lean ====
section
/-! DEFINITION. The operations every meaning is written over: registers and the program counter, memory, the data
accesses, the fetch, taking the IllegalOp exception and returning from it. -/

namespace Sys2Proof.Machine

/-- Go on with the value an outcome carries; a fault or a refusal ends the step. -/
def andThen {α β : Type} (o : Host.Outcome α Fault Refusal) (f : α → Host.Outcome β Fault Refusal) :
    Host.Outcome β Fault Refusal :=
  match o with
  | .next a => f a
  | .fault r => .fault r
  | .refused r => .refused r

/-! ## Registers and the program counter (R20 to R29) -/

/-- The place of a register in the register file. -/
def regIndex : Reg → Fin 8
  | .r0 => 0
  | .r1 => 1
  | .r2 => 2
  | .r3 => 3
  | .r4 => 4
  | .r5 => 5
  | .r6 => 6
  | .r7 => 7

/-- `x[r]` (R6). No register is hardwired (R22). -/
def State.reg (s : State) (r : Reg) : Word := s.regs[regIndex r]

/-- `x[r] <- v`: all 16 bits, R0 like any other (R6, R21, R22). -/
def State.setReg (s : State) (r : Reg) (v : Word) : State :=
  { s with regs := s.regs.set (regIndex r).val v (regIndex r).isLt }

/-- `trunc16(pc + 2)`, the address of the next sequential instruction (R26, R28). -/
def State.nextPc (s : State) : Word := s.pc + 2#16

/-- `pc <- t` (R6); bit 0 is not forced (R29). -/
def State.setPc (s : State) (t : Word) : State := { s with pc := t }

/-- `x[rd] <- v; pc <- trunc16(pc + 2)`: what every instruction that only computes a register does (R100, R130). -/
def writeBack (rd : Reg) (v : Word) (s : State) : Host.Outcome State Fault Refusal :=
  .next ((s.setReg rd v).setPc s.nextPc)

/-- `pc <- t` and nothing else. -/
def jumpTo (t : Word) (s : State) : Host.Outcome State Fault Refusal :=
  .next (s.setPc t)

/-- `addr[0] = 1` (R46, R47). -/
def isOdd (a : Word) : Bool := a.getLsbD 0

/-! ## Memory (20_memory.md) -/

/-- The byte at an address, none where it has no value (R33). -/
def Memory.get : Memory → Nat → Option Byte
  | [], _ => none
  | (x, v) :: rest, a => if a = x then some v else Memory.get rest a

/-- Give a byte a value, keeping the addresses rising. -/
def Memory.set : Memory → Nat → Byte → Memory
  | [], a, b => [(a, b)]
  | (x, v) :: rest, a, b =>
    if a < x then (a, b) :: (x, v) :: rest
    else if a = x then (a, b) :: rest
    else (x, v) :: Memory.set rest a b

/-- The canonical form: addresses strictly rising and inside the address space (R40). -/
abbrev Memory.wf (m : Memory) : Prop :=
  m.Pairwise (fun c d => c.1 < d.1) ∧ ∀ c ∈ m, c.1 < memBytes

/-- A memory in canonical form from any list of cells, a later cell winning (the host's `IMAGE`, R231 (a)). -/
def Memory.ofCells (cells : List Host.Cell) : Memory :=
  cells.foldl (fun m c => Memory.set m c.1 c.2) []

/-- The word at an even address, none unless both bytes have a value (R43, R44). -/
def Memory.getWord (o : ByteOrder) (m : Memory) (a : Word) : Option Word :=
  match Memory.get m a.toNat, Memory.get m (a.toNat + 1) with
  | some lo, some hi => some (wordOfBytes o lo hi)
  | some _, none => none
  | none, _ => none

/-- Write both bytes of the word at an even address (R45). -/
def Memory.setWord (o : ByteOrder) (m : Memory) (a : Word) (v : Word) : Memory :=
  Memory.set (Memory.set m a.toNat (lowAddressByte o v)) (a.toNat + 1) (highAddressByte o v)

/-- Is the address in the set? -/
def AddrSet.has (l : AddrSet) (a : Nat) : Bool := l.elem a

/-- Put an address in, keeping the set rising. -/
def AddrSet.insert : AddrSet → Nat → AddrSet
  | [], a => [a]
  | x :: rest, a =>
    if a < x then a :: x :: rest
    else if a = x then x :: rest
    else x :: AddrSet.insert rest a

/-- Take an address out. -/
def AddrSet.remove (l : AddrSet) (a : Nat) : AddrSet := l.filter (fun x => x != a)

/-- The canonical form of a set of byte addresses. -/
abbrev AddrSet.wf (l : AddrSet) : Prop :=
  l.Pairwise (fun x y => x < y) ∧ ∀ a ∈ l, a < memBytes

/-- The word at an even address, in the launch's byte order, none where it has no value. -/
def State.word (s : State) (a : Word) : Option Word := Memory.getWord s.config.byteOrder s.mem a

/-- The store itself: both bytes together, and both join `Stored` (R45). -/
def State.storeWord (s : State) (a v : Word) : State :=
  { s with
    mem := Memory.setWord s.config.byteOrder s.mem a v
    stored := AddrSet.insert (AddrSet.insert s.stored a.toNat) (a.toNat + 1) }

/-- `MemRead(addr, 2)` for data (R44, R46). -/
def memRead (s : State) (a : Word) : Host.Outcome Word Fault Refusal :=
  if isOdd a then .fault (.misalignedData a)
  else match s.word a with
    | some v => .next v
    | none => .fault (.uninitMemory a)

/-- `MemWrite(addr, 2, v)` (R45, R46). -/
def memWrite (s : State) (a v : Word) : Host.Outcome State Fault Refusal :=
  if isOdd a then .fault (.misalignedData a) else .next (s.storeWord a v)

/-! ## The fetch (R7, R47, R52, R53, R209) -/

/-- The instruction word at `pc`, with the checks of R7 in their order; a halted machine has no step. -/
def fetch (s : State) : Host.Outcome Word Fault Refusal :=
  if s.halted then .fault .halted
  else if isOdd s.pc then .fault (.misalignedFetch s.pc)
  else if AddrSet.has s.stored s.pc.toNat || AddrSet.has s.stored (s.pc.toNat + 1) then
    .refused (.selfModifyingCode s.pc)
  else match s.word s.pc with
    | some w => .next w
    | none => .fault (.uninitMemory s.pc)

/-- Lay an instruction word down so that the next step fetches it: running, at an even pc, the word in memory
there, and its two bytes counted as loaded, not as stored (what a host's load of the image does, R239). -/
def State.placeForFetch (s : State) (w : Word) : State :=
  let pc := s.pc &&& 0xFFFE#16
  { s with
    pc := pc
    halted := false
    mem := Memory.setWord s.config.byteOrder s.mem pc w
    stored := AddrSet.remove (AddrSet.remove s.stored pc.toNat) (pc.toNat + 1) }

/-! ## The exception (60_exceptions.md) -/

/-- `HANDLER_ADDR` (R3, R204). -/
def handlerAddr : Word := 0x0002#16

/-- `raise IllegalOp()`: EPC takes the address after the SIIC and control goes to the handler; nothing else
changes (R203). -/
def takeIllegalOp (s : State) : State := { s with epc := s.nextPc, pc := handlerAddr }

/-- The return from the exception: `pc <- epc`, and nothing else (R206). -/
def returnFromException (s : State) : State := { s with pc := s.epc }

/-- `pc <- trunc16(pc + 2); halted <- true` (R190). -/
def stopMachine (s : State) : State := { s with pc := s.nextPc, halted := true }

end Sys2Proof.Machine
end

