-- ==== Sys2Proof/Machine/Operands.lean ====
section
/-! DEFINITION. Operand forms (30_encoding.md R67): the extensions of immediates, shift amounts, the one addressing
mode and the targets of branches and jumps. -/

namespace Sys2Proof.Machine

/-- `sext_5`: ADDI, SUBI, LD, ST, STU (R67). -/
def sext5 (i : BitVec 5) : Word := i.signExtend 16

/-- `zext_5`: ORI, ANDI (R67). -/
def zext5 (i : BitVec 5) : Word := i.zeroExtend 16

/-- `sext_8`: branches, LBI, JR, JALR (R67). -/
def sext8 (i : BitVec 8) : Word := i.signExtend 16

/-- `sext_11`: J, JAL (R67). -/
def sext11 (d : BitVec 11) : Word := d.signExtend 16

/-- The amount of an immediate shift: the low 4 bits, bit 4 ignored (R109). -/
def immAmount (i : BitVec 5) : Nat := (i.extractLsb' 0 4).toNat

/-- The amount of a register shift: the low 4 bits of the register's value (R140). -/
def regAmount (v : Word) : Nat := (v.extractLsb' 0 4).toNat

/-- `EA`: base plus signed byte offset, modulo 65536 (R120). -/
def effectiveAddress (s : State) (rs : Reg) (i : BitVec 5) : Word := s.reg rs + sext5 i

/-- The target of a taken branch: relative to the next instruction, in bytes (R160). -/
def branchTarget (s : State) (i : BitVec 8) : Word := s.nextPc + sext8 i

/-- The target of J and JAL (R181, R183). -/
def displacementTarget (s : State) (d : BitVec 11) : Word := s.nextPc + sext11 d

/-- The target of JR and JALR: a register plus an immediate, not relative to the pc (R182, R184). -/
def registerTarget (s : State) (rs : Reg) (i : BitVec 8) : Word := s.reg rs + sext8 i

end Sys2Proof.Machine
end

