-- ==== Sys2Proof/Machine/Branches.lean ====
section
/-! DEFINITION. BEQZ, BNEZ, BLTZ (spec 43_branches.md). -/

namespace Sys2Proof.Machine

/-- To the target where the condition holds, else to the next instruction; no delay slot (R160). -/
def branchIf (cond : Bool) (imm : BitVec 8) (s : State) : Host.Outcome State Fault Refusal :=
  jumpTo (if cond then branchTarget s imm else s.nextPc) s

/-- R161. -/
def execBeqz (rs : Reg) (imm : BitVec 8) (s : State) : Host.Outcome State Fault Refusal :=
  branchIf (isZero (s.reg rs)) imm s

/-- R162. -/
def execBnez (rs : Reg) (imm : BitVec 8) (s : State) : Host.Outcome State Fault Refusal :=
  branchIf (!isZero (s.reg rs)) imm s

/-- R163. -/
def execBltz (rs : Reg) (imm : BitVec 8) (s : State) : Host.Outcome State Fault Refusal :=
  branchIf (isNegative (s.reg rs)) imm s

end Sys2Proof.Machine
end

