-- ==== Sys2Proof/Machine/Alu.lean ====
section
/-! DEFINITION. The 16-bit shift, rotate and bit-reverse operations, for an amount `n` of 0 to 15
(40_immediate_alu.md R105 to R109, 42_register_alu.md R131, R136 to R140). -/

namespace Sys2Proof.Machine

/-- Rotate left: bit `i` goes to bit `(i + n) mod 16` (R105, R136). -/
def rotateLeft (v : Word) (n : Nat) : Word :=
  if n = 0 then v else (v <<< n) ||| (v >>> (16 - n))

/-- Rotate right: bit `i` goes to bit `(i - n) mod 16` (R107, R138). -/
def rotateRight (v : Word) (n : Nat) : Word :=
  if n = 0 then v else (v >>> n) ||| (v <<< (16 - n))

/-- Shift left, zeros entering at bit 0 (R106, R137). -/
def shiftLeft (v : Word) (n : Nat) : Word := v <<< n

/-- Shift right, copies of bit 15 entering at the top (R108, R139, G2). -/
def shiftRightArith (v : Word) (n : Nat) : Word := v.sshiftRight n

/-- Left-right reversal: bit `i` of the result is bit `15 - i` (R131). -/
def bitReverse (v : Word) : Word := v.reverse

end Sys2Proof.Machine
end

