-- ==== Sys2Proof/Machine/ImmediateAlu.lean ====
section
/-! DEFINITION. ADDI, SUBI, ORI, ANDI, ROLI, SLLI, RORI, SRAI (spec 40_immediate_alu.md). -/

namespace Sys2Proof.Machine

/-- R101. -/
def execAddi (rd rs : Reg) (imm : BitVec 5) (s : State) : Host.Outcome State Fault Refusal :=
  writeBack rd (s.reg rs + sext5 imm) s

/-- R102: the immediate minus the register. -/
def execSubi (rd rs : Reg) (imm : BitVec 5) (s : State) : Host.Outcome State Fault Refusal :=
  writeBack rd (sext5 imm - s.reg rs) s

/-- R103: the immediate zero-extended. -/
def execOri (rd rs : Reg) (imm : BitVec 5) (s : State) : Host.Outcome State Fault Refusal :=
  writeBack rd (s.reg rs ||| zext5 imm) s

/-- R104: the immediate zero-extended. -/
def execAndi (rd rs : Reg) (imm : BitVec 5) (s : State) : Host.Outcome State Fault Refusal :=
  writeBack rd (s.reg rs &&& zext5 imm) s

/-- R105, R109. -/
def execRoli (rd rs : Reg) (imm : BitVec 5) (s : State) : Host.Outcome State Fault Refusal :=
  writeBack rd (rotateLeft (s.reg rs) (immAmount imm)) s

/-- R106, R109. -/
def execSlli (rd rs : Reg) (imm : BitVec 5) (s : State) : Host.Outcome State Fault Refusal :=
  writeBack rd (shiftLeft (s.reg rs) (immAmount imm)) s

/-- R107, R109. -/
def execRori (rd rs : Reg) (imm : BitVec 5) (s : State) : Host.Outcome State Fault Refusal :=
  writeBack rd (rotateRight (s.reg rs) (immAmount imm)) s

/-- R108, R109. -/
def execSrai (rd rs : Reg) (imm : BitVec 5) (s : State) : Host.Outcome State Fault Refusal :=
  writeBack rd (shiftRightArith (s.reg rs) (immAmount imm)) s

end Sys2Proof.Machine
end

