-- ==== Sys2Proof/Machine/Jumps.lean ====
section
/-! DEFINITION. J, JR, JAL, JALR, RET (spec 45_jumps.md). -/

namespace Sys2Proof.Machine

/-- R7 takes the address of the next sequential instruction and control goes to `t` (R23, R180). -/
def linkAndJump (t : Word) (s : State) : Host.Outcome State Fault Refusal :=
  jumpTo t (s.setReg Reg.link s.nextPc)

/-- R181. -/
def execJ (disp : BitVec 11) (s : State) : Host.Outcome State Fault Refusal :=
  jumpTo (displacementTarget s disp) s

/-- R182. -/
def execJr (rs : Reg) (imm : BitVec 8) (s : State) : Host.Outcome State Fault Refusal :=
  jumpTo (registerTarget s rs imm) s

/-- R183. -/
def execJal (disp : BitVec 11) (s : State) : Host.Outcome State Fault Refusal :=
  linkAndJump (displacementTarget s disp) s

/-- R184: the target comes from the old value of `rs`, R7 included (D18). -/
def execJalr (rs : Reg) (imm : BitVec 8) (s : State) : Host.Outcome State Fault Refusal :=
  linkAndJump (registerTarget s rs imm) s

/-- R185. -/
def execRet (s : State) : Host.Outcome State Fault Refusal :=
  jumpTo (s.reg Reg.link) s

end Sys2Proof.Machine
end

