-- ==== Sys2Proof/Machine/LoadImmediate.lean ====
section
/-! DEFINITION. LBI, SLBI (spec 44_load_immediate.md). -/

namespace Sys2Proof.Machine

/-- R170. -/
def execLbi (rs : Reg) (imm : BitVec 8) (s : State) : Host.Outcome State Fault Refusal :=
  writeBack rs (sext8 imm) s

/-- The old low byte above the immediate (R171). -/
def shiftInByte (v : Word) (imm : BitVec 8) : Word := v.extractLsb' 0 8 ++ imm

/-- R171. -/
def execSlbi (rs : Reg) (imm : BitVec 8) (s : State) : Host.Outcome State Fault Refusal :=
  writeBack rs (shiftInByte (s.reg rs) imm) s

end Sys2Proof.Machine
end

