-- ==== Sys2Proof/Machine/LoadStore.lean ====
section
/-! DEFINITION. ST, LD, STU (spec 41_load_store.md). -/

namespace Sys2Proof.Machine

/-- R121: `rd` is the data, `rs` the base. -/
def execSt (rd rs : Reg) (imm : BitVec 5) (s : State) : Host.Outcome State Fault Refusal :=
  andThen (memWrite s (effectiveAddress s rs imm) (s.reg rd)) fun t => .next (t.setPc s.nextPc)

/-- R122. -/
def execLd (rd rs : Reg) (imm : BitVec 5) (s : State) : Host.Outcome State Fault Refusal :=
  andThen (memRead s (effectiveAddress s rs imm)) fun v => writeBack rd v s

/-- R123: the old value of `rd` goes to the new address, which `rs` then receives. -/
def execStu (rd rs : Reg) (imm : BitVec 5) (s : State) : Host.Outcome State Fault Refusal :=
  andThen (memWrite s (effectiveAddress s rs imm) (s.reg rd)) fun t =>
    .next ((t.setReg rs (effectiveAddress s rs imm)).setPc s.nextPc)

end Sys2Proof.Machine
end

