-- ==== Sys2Proof/Machine/RegisterAlu.lean ====
section
/-! DEFINITION. BTR, ADD, SUB, OR, AND, ROL, SLL, ROR, SRA, SEQ, SLT, SLE, SCO (spec 42_register_alu.md). -/

namespace Sys2Proof.Machine

/-- R131. -/
def execBtr (rd rs : Reg) (s : State) : Host.Outcome State Fault Refusal :=
  writeBack rd (bitReverse (s.reg rs)) s

/-- R136, R140. -/
def execRol (rd rs rt : Reg) (s : State) : Host.Outcome State Fault Refusal :=
  writeBack rd (rotateLeft (s.reg rs) (regAmount (s.reg rt))) s

/-- R137, R140. -/
def execSll (rd rs rt : Reg) (s : State) : Host.Outcome State Fault Refusal :=
  writeBack rd (shiftLeft (s.reg rs) (regAmount (s.reg rt))) s

/-- R138, R140. -/
def execRor (rd rs rt : Reg) (s : State) : Host.Outcome State Fault Refusal :=
  writeBack rd (rotateRight (s.reg rs) (regAmount (s.reg rt))) s

/-- R139, R140. -/
def execSra (rd rs rt : Reg) (s : State) : Host.Outcome State Fault Refusal :=
  writeBack rd (shiftRightArith (s.reg rs) (regAmount (s.reg rt))) s

/-- R132. -/
def execAdd (rd rs rt : Reg) (s : State) : Host.Outcome State Fault Refusal :=
  writeBack rd (s.reg rs + s.reg rt) s

/-- R133: `Rt - Rs`. -/
def execSub (rd rs rt : Reg) (s : State) : Host.Outcome State Fault Refusal :=
  writeBack rd (s.reg rt - s.reg rs) s

/-- R134. -/
def execOr (rd rs rt : Reg) (s : State) : Host.Outcome State Fault Refusal :=
  writeBack rd (s.reg rs ||| s.reg rt) s

/-- R135. -/
def execAnd (rd rs rt : Reg) (s : State) : Host.Outcome State Fault Refusal :=
  writeBack rd (s.reg rs &&& s.reg rt) s

/-- R141, R142. -/
def execSeq (rd rs rt : Reg) (s : State) : Host.Outcome State Fault Refusal :=
  writeBack rd (conditionWord (condEq (s.reg rs) (s.reg rt))) s

/-- R141, R143. -/
def execSlt (rd rs rt : Reg) (s : State) : Host.Outcome State Fault Refusal :=
  writeBack rd (conditionWord (condLt (s.reg rs) (s.reg rt))) s

/-- R141, R144. -/
def execSle (rd rs rt : Reg) (s : State) : Host.Outcome State Fault Refusal :=
  writeBack rd (conditionWord (condLe (s.reg rs) (s.reg rt))) s

/-- R141, R145. -/
def execSco (rd rs rt : Reg) (s : State) : Host.Outcome State Fault Refusal :=
  writeBack rd (conditionWord (carryOut (s.reg rs) (s.reg rt))) s

end Sys2Proof.Machine
end

