-- ==== Sys2Proof/Machine/Special.lean ====
section
/-! DEFINITION. HALT, NOP, SIIC, RTI (spec 46_special.md). -/

namespace Sys2Proof.Machine

/-- R190. -/
def execHalt (s : State) : Host.Outcome State Fault Refusal := .next (stopMachine s)

/-- R191. -/
def execNop (s : State) : Host.Outcome State Fault Refusal := jumpTo s.nextPc s

/-- R193 where the optional part is built, R194 where it is not. -/
def execSiic (s : State) : Host.Outcome State Fault Refusal :=
  if s.config.excSupport then .next (takeIllegalOp s) else .refused (.siicUnsupported s.pc)

/-- R195 where the optional part is built; a NOP where it is not (R196). -/
def execRti (s : State) : Host.Outcome State Fault Refusal :=
  if s.config.excSupport then .next (returnFromException s) else jumpTo s.nextPc s

end Sys2Proof.Machine
end

