-- ==== Sys2Proof/Machine/Step.lean ====
section
/-! DEFINITION. One step of the machine (spec 00_scope.md R7), and where the host lays an instruction down. -/

namespace Sys2Proof.Machine

/-- Fetch, decode, execute (R7). -/
def step (s : State) : Host.Outcome State Fault Refusal :=
  andThen (fetch s) fun w => exec (decodeWord w) s

/-- The state with the instruction whose bits are `w` where the next step fetches: at `pc`, whose bit 0 is cleared,
with the machine running and the two bytes no longer counted as stored. From a running state with an even `pc`
whose two bytes nothing has stored to, only memory changes. -/
def State.withFetchWord (s : State) (nbits w : Nat) : State :=
  s.placeForFetch (BitVec.ofNat 16 (w % 2 ^ nbits))

end Sys2Proof.Machine
end

