-- ==== Sys2Proof/Safety.lean ====
section
/-! DEFINITION. What claims are stated in: frames (what an instruction leaves alone), the invariant every step keeps,
safe and finished runs (spec 60_exceptions.md R211, 70_reset_and_hazards.md R238, R239), and machines that differ
only in byte order (20_memory.md R48). -/

namespace Sys2Proof.Machine

/-! ## Outcomes -/

/-- The next state, if the outcome is one. -/
def nextOf {α : Type} : Host.Outcome α Fault Refusal → Option α
  | .next a => some a
  | .fault _ => none
  | .refused _ => none

/-- The fault, if the outcome is one. -/
def faultOf {α : Type} : Host.Outcome α Fault Refusal → Option Fault
  | .next _ => none
  | .fault r => some r
  | .refused _ => none

/-- The refusal, if the outcome is one. -/
def refusalOf {α : Type} : Host.Outcome α Fault Refusal → Option Refusal
  | .next _ => none
  | .fault _ => none
  | .refused r => some r

/-- The outcome with its next state, if any, replaced. -/
def mapNext (f : State → State) : Host.Outcome State Fault Refusal → Host.Outcome State Fault Refusal
  | .next s => .next (f s)
  | .fault r => .fault r
  | .refused r => .refused r

/-! ## Frames -/

/-- Every register but those listed holds what it held. -/
def RegsSameExcept (written : List Reg) (s t : State) : Prop :=
  ∀ r, r ∉ written → t.reg r = s.reg r

/-- Every byte of memory reads as before, and `Stored` is the same. -/
def MemorySame (s t : State) : Prop :=
  (∀ a : Nat, Memory.get t.mem a = Memory.get s.mem a) ∧ t.stored = s.stored

/-- EPC, the halted flag and the launch's parameters are the same. -/
def ControlSame (s t : State) : Prop :=
  t.epc = s.epc ∧ t.halted = s.halted ∧ t.config = s.config

/-- The frame of a form that stores nothing: only the listed registers and the pc may differ. -/
def Frame (written : List Reg) (s t : State) : Prop :=
  RegsSameExcept written s t ∧ MemorySame s t ∧ ControlSame s t

/-- The frame of a form that stores the word at `ea`: only the listed registers, the pc, the two bytes at `ea` and
`ea + 1`, and their membership in `Stored`, may differ. -/
def StoreFrame (written : List Reg) (ea : Word) (s t : State) : Prop :=
  RegsSameExcept written s t ∧ ControlSame s t ∧
  (∀ a : Nat, a ≠ ea.toNat → a ≠ ea.toNat + 1 → Memory.get t.mem a = Memory.get s.mem a) ∧
  (∀ a : Nat, a ≠ ea.toNat → a ≠ ea.toNat + 1 → AddrSet.has t.stored a = AddrSet.has s.stored a)

/-! ## Which register fields an instruction reads and writes (10_state.md R24) -/

/-- The registers an instruction reads (the table of R24). -/
def readRegs : Instr → List Reg
  | .halt | .nop | .siic | .rti | .j _ | .jal _ | .lbi _ _ => []
  | .jr rs _ | .jalr rs _ | .beqz rs _ | .bnez rs _ | .bltz rs _ | .slbi rs _ => [rs]
  | .ret => [Reg.link]
  | .addi _ rs _ | .subi _ rs _ | .ori _ rs _ | .andi _ rs _ | .roli _ rs _ | .slli _ rs _
  | .rori _ rs _ | .srai _ rs _ | .ld _ rs _ | .btr _ rs => [rs]
  | .st rd rs _ | .stu rd rs _ => [rd, rs]
  | .rol _ rs rt | .sll _ rs rt | .ror _ rs rt | .sra _ rs rt | .add _ rs rt | .sub _ rs rt | .or _ rs rt
  | .and _ rs rt | .seq _ rs rt | .slt _ rs rt | .sle _ rs rt | .sco _ rs rt => [rs, rt]

/-- The registers an instruction writes (the table of R24). -/
def writtenRegs : Instr → List Reg
  | .halt | .nop | .siic | .rti | .j _ | .jr _ _ | .beqz _ _ | .bnez _ _ | .bltz _ _ | .ret | .st _ _ _ => []
  | .jal _ | .jalr _ _ => [Reg.link]
  | .lbi rs _ | .slbi rs _ | .stu _ rs _ => [rs]
  | .addi rd _ _ | .subi rd _ _ | .ori rd _ _ | .andi rd _ _ | .roli rd _ _ | .slli rd _ _
  | .rori rd _ _ | .srai rd _ _ | .ld rd _ _ | .btr rd _ => [rd]
  | .rol rd _ _ | .sll rd _ _ | .ror rd _ _ | .sra rd _ _ | .add rd _ _ | .sub rd _ _ | .or rd _ _
  | .and rd _ _ | .seq rd _ _ | .slt rd _ _ | .sle rd _ _ | .sco rd _ _ => [rd]

/-! ## The program counter (10_state.md R27, R29) -/

/-- `trunc16` of the spec, on exact integers (R5). -/
def trunc16 (v : Int) : Word := BitVec.ofInt 16 v

/-- The new pc of an instruction that answers a next state (the table of R27, with the NOP of R196). -/
def pcAfter (i : Instr) (s : State) : Word :=
  match i with
  | .j d | .jal d => trunc16 (s.pc.toNat + 2 + d.toInt)
  | .jr rs imm | .jalr rs imm => trunc16 ((s.reg rs).toNat + imm.toInt)
  | .beqz rs imm =>
    if s.reg rs = 0 then trunc16 (s.pc.toNat + 2 + imm.toInt) else trunc16 (s.pc.toNat + 2)
  | .bnez rs imm =>
    if s.reg rs ≠ 0 then trunc16 (s.pc.toNat + 2 + imm.toInt) else trunc16 (s.pc.toNat + 2)
  | .bltz rs imm =>
    if (s.reg rs).toInt < 0 then trunc16 (s.pc.toNat + 2 + imm.toInt) else trunc16 (s.pc.toNat + 2)
  | .ret => s.reg .r7
  | .siic => 0x0002#16
  | .rti => if s.config.excSupport then s.epc else trunc16 (s.pc.toNat + 2)
  | .halt | .nop | .addi _ _ _ | .subi _ _ _ | .ori _ _ _ | .andi _ _ _ | .st _ _ _ | .ld _ _ _ | .slbi _ _
  | .stu _ _ _ | .roli _ _ _ | .slli _ _ _ | .rori _ _ _ | .srai _ _ _ | .lbi _ _ | .btr _ _ | .rol _ _ _
  | .sll _ _ _ | .ror _ _ _ | .sra _ _ _ | .add _ _ _ | .sub _ _ _ | .or _ _ _ | .and _ _ _ | .seq _ _ _
  | .slt _ _ _ | .sle _ _ _ | .sco _ _ _ => trunc16 (s.pc.toNat + 2)

/-- What keeps an even pc even (R29): displacements are even, and so are the register sums, link values and EPC
that an instruction copies to the pc. -/
def EvenTarget (i : Instr) (s : State) : Prop :=
  match i with
  | .j d | .jal d => d.getLsbD 0 = false
  | .beqz _ imm | .bnez _ imm | .bltz _ imm => imm.getLsbD 0 = false
  | .jr rs imm | .jalr rs imm => isOdd (s.reg rs) = imm.getLsbD 0
  | .ret => isOdd (s.reg .r7) = false
  | .rti => isOdd s.epc = false
  | .siic | .halt | .nop | .addi _ _ _ | .subi _ _ _ | .ori _ _ _ | .andi _ _ _ | .st _ _ _ | .ld _ _ _
  | .slbi _ _ | .stu _ _ _ | .roli _ _ _ | .slli _ _ _ | .rori _ _ _ | .srai _ _ _ | .lbi _ _ | .btr _ _
  | .rol _ _ _ | .sll _ _ _ | .ror _ _ _ | .sra _ _ _ | .add _ _ _ | .sub _ _ _ | .or _ _ _ | .and _ _ _
  | .seq _ _ _ | .slt _ _ _ | .sle _ _ _ | .sco _ _ _ => True

/-! ## The invariant -/

/-- What every step keeps: memory and `Stored` are in canonical form, every stored byte has a value (R33, R45),
both bytes of a word are stored or neither is (R43, R45), and EPC is even (R195: an odd EPC cannot arise). -/
structure Inv (s : State) : Prop where
  mem_wf : Memory.wf s.mem
  stored_wf : AddrSet.wf s.stored
  stored_has_value : ∀ a, AddrSet.has s.stored a = true → (Memory.get s.mem a).isSome = true
  stored_pairs : ∀ w : Word, isOdd w = false →
    AddrSet.has s.stored w.toNat = AddrSet.has s.stored (w.toNat + 1)
  epc_even : isOdd s.epc = false

/-! ## Runs -/

/-- Instructions executed one after another, each to completion (R50), as long as each answers a next state. -/
def execAll : List Instr → State → Host.Outcome State Fault Refusal
  | [], s => .next s
  | i :: rest, s => andThen (exec i s) (execAll rest)

/-- `k` steps, stopping at the first that answers no next state (what `Host.Core.run` does with this machine). -/
def run : Nat → State → Host.Outcome State Fault Refusal
  | 0, s => .next s
  | k + 1, s => andThen (step s) (run k)

/-- `k` steps with no fault and no refusal: the premise of every claim about a program (R211). -/
def SafeFor (k : Nat) (s : State) : Prop :=
  ∃ t, run k s = .next t

/-- The run is over after exactly `k` steps, in the state `t` (R238). -/
def EndsIn (k : Nat) (s t : State) : Prop :=
  run k s = .next t ∧ t.halted = true

/-- What the host observes of a finished run: all of memory, bytes with no value included as such (R239). -/
def hostDump (s : State) : Option (Nat → Option Byte) :=
  if s.halted then some (Memory.get s.mem) else none

/-! ## Byte order -/

/-- Two machines that agree on everything a program can see and may differ in byte order, each holding its words
in its own order (R48): every aligned word reads the same in both. -/
structure SameWords (s t : State) : Prop where
  exc : t.config.excSupport = s.config.excSupport
  regs : t.regs = s.regs
  pc : t.pc = s.pc
  epc : t.epc = s.epc
  halted : t.halted = s.halted
  stored : t.stored = s.stored
  words : ∀ a : Word, isOdd a = false → t.word a = s.word a

/-- The two outcomes are the same fault, the same refusal, or next states that again hold the same words. -/
def SameOutcome : Host.Outcome State Fault Refusal → Host.Outcome State Fault Refusal → Prop
  | .next s, .next t => SameWords s t
  | .fault a, .fault b => a = b
  | .refused a, .refused b => a = b
  | .next _, .fault _ => False
  | .next _, .refused _ => False
  | .fault _, .next _ => False
  | .fault _, .refused _ => False
  | .refused _, .next _ => False
  | .refused _, .fault _ => False

end Sys2Proof.Machine
end

