-- ==== Sys2Proof/Certificates/Slice0/Obligations.lean ====
section
/-! DEFINITION. The statements for the provers. Results are stated in the spec's own terms: exact integers brought
back by `trunc16` (00_scope.md R5), or bit by bit. A result statement says that the instruction ANSWERS a next state,
what that state holds and, by its frame, that it holds everything else unchanged. -/

open Sys2Proof Sys2Proof.Machine

/-! ## Encoding (30_encoding.md) -/

/-- Words of 95_test_vectors.md 2.1, one per format and per funct group, decode to what they are listed as. -/
def Obligations.SampleWordsDecode : Prop :=
  decodeWord 0x0000#16 = .halt ∧ decodeWord 0x1300#16 = .siic ∧ decodeWord 0x1800#16 = .rti ∧
  decodeWord 0x2400#16 = .j 0x400#11 ∧ decodeWord 0x3F02#16 = .jalr .r7 0x02#8 ∧
  decodeWord 0x423F#16 = .addi .r1 .r2 0x1F#5 ∧ decodeWord 0x69FA#16 = .bnez .r1 0xFA#8 ∧
  decodeWord 0x8224#16 = .st .r1 .r2 0x04#5 ∧ decodeWord 0x9134#16 = .slbi .r1 0x34#8 ∧
  decodeWord 0xB23F#16 = .rori .r1 .r2 0x1F#5 ∧ decodeWord 0xCA04#16 = .btr .r1 .r2 ∧
  decodeWord 0xD14E#16 = .ror .r3 .r1 .r2 ∧ decodeWord 0xD94D#16 = .sub .r3 .r1 .r2 ∧
  decodeWord 0xF94C#16 = .sco .r3 .r1 .r2

/-- Every instruction, with every operand the encoding admits, is read back from its word and from its bytes in
either byte order, and what follows it is left alone (R60 to R68). -/
def Obligations.DecodeInvertsEncode : Prop :=
  ∀ i : Instr, decodeWord (encode i) = i ∧
    ∀ (o : ByteOrder) (rest : List Byte), decode o (encodeBytes o i ++ rest) = .ok (i, rest)

/-- Encoding what a word decodes to gives the word back with its don't-care bits cleared (R68, R70). -/
def Obligations.EncodeAfterDecodeClearsDontCareBits : Prop :=
  ∀ w : Word, encode (decodeWord w) = w &&& ~~~dontCareBits (decodeWord w)

/-- The bits written `x` change nothing (R70, the spec's own decision D17), bit 4 of a shift immediate has no effect
(R109), and the encoder emits 0 for the `x` bits. -/
def Obligations.DontCareBitsAreIgnored : Prop :=
  (∀ w x : Word, decodeWord (w ^^^ (x &&& dontCareBits (decodeWord w))) = decodeWord w) ∧
  (∀ (w : Word) (s : State),
    (decodeWord w).mnemonic ∈ ["ROLI", "SLLI", "RORI", "SRAI"] →
      exec (decodeWord (w ^^^ 0x0010#16)) s = exec (decodeWord w) s) ∧
  (∀ i : Instr, encode i &&& dontCareBits i = 0#16)

/-- R69, which the spec derives from R68: every word belongs to exactly one row of the opcode table, the decoder reads that row's instruction, and
no two bytes are rejected. -/
def Obligations.EveryWordIsExactlyOneInstruction : Prop :=
  (∀ w : Word, ∃ row ∈ opcodeTable, row.holds w ∧ (decodeWord w).mnemonic = row.mnemonic ∧
    ∀ row' ∈ opcodeTable, row'.holds w → row' = row) ∧
  (∀ (o : ByteOrder) (b0 b1 : Byte) (rest : List Byte), ∃ i, decode o (b0 :: b1 :: rest) = .ok (i, rest))

/-- R77: wherever in bits 10:0 the register written after `siic` is put, and whichever it is, the word is the same
instruction and does the same. -/
def Obligations.SiicOperandIsIgnored : Prop :=
  ∀ (x y : BitVec 11) (s : State),
    decodeWord (0b00010#5 ++ x) = .siic ∧ exec (decodeWord (0b00010#5 ++ x)) s = exec (decodeWord (0b00010#5 ++ y)) s

/-! ## The step (00_scope.md R7) -/

/-- R7: a halted machine has no step; otherwise the checks come in the order the rule gives, and where they all
pass the step is the decoded instruction's execution at this very state. That the checks end in these faults and
this refusal is the spec's own decision (D6, D7, D11). -/
def Obligations.StepRunsTheDecodedInstruction : Prop :=
  ∀ s : State,
    (s.halted = true → ∀ t, step s ≠ .next t) ∧
    (s.halted = false → isOdd s.pc = true → step s = .fault (.misalignedFetch s.pc)) ∧
    (s.halted = false → isOdd s.pc = false →
      (AddrSet.has s.stored s.pc.toNat = true ∨ AddrSet.has s.stored (s.pc.toNat + 1) = true) →
      step s = .refused (.selfModifyingCode s.pc)) ∧
    (s.halted = false → isOdd s.pc = false →
      AddrSet.has s.stored s.pc.toNat = false → AddrSet.has s.stored (s.pc.toNat + 1) = false →
      (Memory.get s.mem s.pc.toNat = none ∨ Memory.get s.mem (s.pc.toNat + 1) = none) →
      step s = .fault (.uninitMemory s.pc)) ∧
    (∀ lo hi : Byte, s.halted = false → isOdd s.pc = false →
      AddrSet.has s.stored s.pc.toNat = false → AddrSet.has s.stored (s.pc.toNat + 1) = false →
      Memory.get s.mem s.pc.toNat = some lo → Memory.get s.mem (s.pc.toNat + 1) = some hi →
      step s = exec (decodeWord (wordOfBytes s.config.byteOrder lo hi)) s)

/-- The host's hook: an instruction laid down where the machine fetches is what the next step runs, from any state,
and registers, EPC and the launch's parameters are as they were (log entry 8). -/
def Obligations.PlacedWordIsRunNext : Prop :=
  ∀ (s : State) (w : Word),
    decodeTableWord 16 w.toNat = some (decodeWord w) ∧
    step (s.withFetchWord 16 w.toNat) = exec (decodeWord w) (s.withFetchWord 16 w.toNat) ∧
    (s.withFetchWord 16 w.toNat).regs = s.regs ∧ (s.withFetchWord 16 w.toNat).epc = s.epc ∧
    (s.withFetchWord 16 w.toNat).config = s.config ∧
    (isOdd s.pc = false → (s.withFetchWord 16 w.toNat).pc = s.pc)

/-! ## Results: immediate arithmetic, logic, shifts (40_immediate_alu.md) -/

/-- R101, R102. -/
def Obligations.AddSubImmediateResults : Prop :=
  ∀ (s : State) (rd rs : Reg) (i : BitVec 5),
    (encode (.addi rd rs i) = 0b01000#5 ++ rs.bits ++ rd.bits ++ i ∧
      ∃ t, exec (.addi rd rs i) s = .next t ∧
        t.reg rd = trunc16 ((s.reg rs).toNat + i.toInt) ∧
        t.pc = trunc16 (s.pc.toNat + 2) ∧ Frame [rd] s t) ∧
    (encode (.subi rd rs i) = 0b01001#5 ++ rs.bits ++ rd.bits ++ i ∧
      ∃ t, exec (.subi rd rs i) s = .next t ∧
        t.reg rd = trunc16 (i.toInt - (s.reg rs).toNat) ∧
        t.pc = trunc16 (s.pc.toNat + 2) ∧ Frame [rd] s t)

/-- R103, R104, bit by bit: the immediate is zero-extended. -/
def Obligations.OrAndImmediateResults : Prop :=
  ∀ (s : State) (rd rs : Reg) (i : BitVec 5),
    (encode (.ori rd rs i) = 0b01010#5 ++ rs.bits ++ rd.bits ++ i ∧
      ∃ t, exec (.ori rd rs i) s = .next t ∧
        (∀ k, k < 16 → (t.reg rd).getLsbD k = ((s.reg rs).getLsbD k || (decide (k < 5) && i.getLsbD k))) ∧
        t.pc = trunc16 (s.pc.toNat + 2) ∧ Frame [rd] s t) ∧
    (encode (.andi rd rs i) = 0b01011#5 ++ rs.bits ++ rd.bits ++ i ∧
      ∃ t, exec (.andi rd rs i) s = .next t ∧
        (∀ k, k < 16 → (t.reg rd).getLsbD k = ((s.reg rs).getLsbD k && (decide (k < 5) && i.getLsbD k))) ∧
        t.pc = trunc16 (s.pc.toNat + 2) ∧ Frame [rd] s t)

/-- R105, R107, R109: the pseudocode's sum of two shifts, and the sentence about where each bit goes. -/
def Obligations.RotateImmediateResults : Prop :=
  ∀ (s : State) (rd rs : Reg) (i : BitVec 5) (n v : Nat), n = i.toNat % 16 → v = (s.reg rs).toNat →
    (encode (.roli rd rs i) = 0b10100#5 ++ rs.bits ++ rd.bits ++ i ∧
      ∃ t, exec (.roli rd rs i) s = .next t ∧
        (0 < n → (t.reg rd).toNat = (v * 2 ^ n % 65536) ||| (v / 2 ^ (16 - n))) ∧
        (n = 0 → (t.reg rd).toNat = v) ∧
        (∀ k, k < 16 → (t.reg rd).getLsbD ((k + n) % 16) = (s.reg rs).getLsbD k) ∧
        t.pc = trunc16 (s.pc.toNat + 2) ∧ Frame [rd] s t) ∧
    (encode (.rori rd rs i) = 0b10110#5 ++ rs.bits ++ rd.bits ++ i ∧
      ∃ t, exec (.rori rd rs i) s = .next t ∧
        (0 < n → (t.reg rd).toNat = (v / 2 ^ n) ||| (v * 2 ^ (16 - n) % 65536)) ∧
        (n = 0 → (t.reg rd).toNat = v) ∧
        (∀ k, k < 16 → (t.reg rd).getLsbD k = (s.reg rs).getLsbD ((k + n) % 16)) ∧
        t.pc = trunc16 (s.pc.toNat + 2) ∧ Frame [rd] s t)

/-- R106, R137: zeros enter at bit 0, by the low 4 bits of the immediate or of `Rt`. -/
def Obligations.ShiftLeftResults : Prop :=
  ∀ (s : State) (rd rs rt : Reg) (i : BitVec 5),
    (encode (.slli rd rs i) = 0b10101#5 ++ rs.bits ++ rd.bits ++ i ∧
      ∃ t, exec (.slli rd rs i) s = .next t ∧
        (t.reg rd).toNat = (s.reg rs).toNat * 2 ^ (i.toNat % 16) % 65536 ∧
        (∀ k, k < 16 → (t.reg rd).getLsbD k =
          (decide (i.toNat % 16 ≤ k) && (s.reg rs).getLsbD (k - i.toNat % 16))) ∧
        t.pc = trunc16 (s.pc.toNat + 2) ∧ Frame [rd] s t) ∧
    (encode (.sll rd rs rt) = 0b11010#5 ++ rs.bits ++ rt.bits ++ rd.bits ++ 0b01#2 ∧
      ∃ t, exec (.sll rd rs rt) s = .next t ∧
        (t.reg rd).toNat = (s.reg rs).toNat * 2 ^ ((s.reg rt).toNat % 16) % 65536 ∧
        t.pc = trunc16 (s.pc.toNat + 2) ∧ Frame [rd] s t)

/-- SRAI and SRA (R108, R139): the floor of the signed quotient, and the sign in the vacated bits. That
"arithmetic" fills with the sign is what the spec marks as general knowledge (93_implementation_defined.md G2). -/
def Obligations.ShiftRightArithmeticResults : Prop :=
  ∀ (s : State) (rd rs rt : Reg) (i : BitVec 5),
    (encode (.srai rd rs i) = 0b10111#5 ++ rs.bits ++ rd.bits ++ i ∧
      ∃ t, exec (.srai rd rs i) s = .next t ∧
        t.reg rd = trunc16 (Int.fdiv (s.reg rs).toInt (2 ^ (i.toNat % 16))) ∧
        (∀ k, k < 16 → (t.reg rd).getLsbD k =
          if k + i.toNat % 16 ≤ 15 then (s.reg rs).getLsbD (k + i.toNat % 16) else (s.reg rs).getLsbD 15) ∧
        t.pc = trunc16 (s.pc.toNat + 2) ∧ Frame [rd] s t) ∧
    (encode (.sra rd rs rt) = 0b11010#5 ++ rs.bits ++ rt.bits ++ rd.bits ++ 0b11#2 ∧
      ∃ t, exec (.sra rd rs rt) s = .next t ∧
        t.reg rd = trunc16 (Int.fdiv (s.reg rs).toInt (2 ^ ((s.reg rt).toNat % 16))) ∧
        t.pc = trunc16 (s.pc.toNat + 2) ∧ Frame [rd] s t)

/-- SUBI's negation and complement (R102), RORI by `n` as ROLI by `16 - n` (R107), and the two immediates that shift
by nothing, each a copy like ADDI of 0 (R101, R109). -/
def Obligations.ImmediateIdioms : Prop :=
  ∀ (s : State) (rd rs : Reg),
    (∃ t, exec (.subi rd rs 0x00#5) s = .next t ∧ t.reg rd = -(s.reg rs)) ∧
    (∃ t, exec (.subi rd rs 0x1F#5) s = .next t ∧ t.reg rd = ~~~(s.reg rs)) ∧
    (∀ n : Nat, 1 ≤ n → n ≤ 15 →
      exec (.rori rd rs (BitVec.ofNat 5 n)) s = exec (.roli rd rs (BitVec.ofNat 5 (16 - n))) s) ∧
    (∀ i : BitVec 5, i = 0x00#5 ∨ i = 0x10#5 →
      ∃ t, exec (.slli rd rs i) s = .next t ∧ exec (.srai rd rs i) s = .next t ∧ exec (.roli rd rs i) s = .next t ∧
        exec (.rori rd rs i) s = .next t ∧ exec (.addi rd rs 0x00#5) s = .next t ∧ t.reg rd = s.reg rs)

/-! ## Results: register arithmetic, logic, shifts, set, bit-reverse (42_register_alu.md) -/

/-- R132, R133: SUB subtracts `Rs` from `Rt`. -/
def Obligations.AddSubRegisterResults : Prop :=
  ∀ (s : State) (rd rs rt : Reg),
    (encode (.add rd rs rt) = 0b11011#5 ++ rs.bits ++ rt.bits ++ rd.bits ++ 0b00#2 ∧
      ∃ t, exec (.add rd rs rt) s = .next t ∧
        t.reg rd = trunc16 ((s.reg rs).toNat + (s.reg rt).toNat) ∧
        t.pc = trunc16 (s.pc.toNat + 2) ∧ Frame [rd] s t) ∧
    (encode (.sub rd rs rt) = 0b11011#5 ++ rs.bits ++ rt.bits ++ rd.bits ++ 0b01#2 ∧
      ∃ t, exec (.sub rd rs rt) s = .next t ∧
        t.reg rd = trunc16 (((s.reg rt).toNat : Int) - (s.reg rs).toNat) ∧
        t.pc = trunc16 (s.pc.toNat + 2) ∧ Frame [rd] s t)

/-- R134, R135, bit by bit. -/
def Obligations.OrAndRegisterResults : Prop :=
  ∀ (s : State) (rd rs rt : Reg),
    (encode (.or rd rs rt) = 0b11011#5 ++ rs.bits ++ rt.bits ++ rd.bits ++ 0b10#2 ∧
      ∃ t, exec (.or rd rs rt) s = .next t ∧
        (∀ k, k < 16 → (t.reg rd).getLsbD k = ((s.reg rs).getLsbD k || (s.reg rt).getLsbD k)) ∧
        t.pc = trunc16 (s.pc.toNat + 2) ∧ Frame [rd] s t) ∧
    (encode (.and rd rs rt) = 0b11011#5 ++ rs.bits ++ rt.bits ++ rd.bits ++ 0b11#2 ∧
      ∃ t, exec (.and rd rs rt) s = .next t ∧
        (∀ k, k < 16 → (t.reg rd).getLsbD k = ((s.reg rs).getLsbD k && (s.reg rt).getLsbD k)) ∧
        t.pc = trunc16 (s.pc.toNat + 2) ∧ Frame [rd] s t)

/-- R136, R138, R140: the amount is the low 4 bits of `Rt`. -/
def Obligations.RotateRegisterResults : Prop :=
  ∀ (s : State) (rd rs rt : Reg) (n v : Nat), n = (s.reg rt).toNat % 16 → v = (s.reg rs).toNat →
    (encode (.rol rd rs rt) = 0b11010#5 ++ rs.bits ++ rt.bits ++ rd.bits ++ 0b00#2 ∧
      ∃ t, exec (.rol rd rs rt) s = .next t ∧
        (0 < n → (t.reg rd).toNat = (v * 2 ^ n % 65536) ||| (v / 2 ^ (16 - n))) ∧
        (n = 0 → (t.reg rd).toNat = v) ∧
        (∀ k, k < 16 → (t.reg rd).getLsbD ((k + n) % 16) = (s.reg rs).getLsbD k) ∧
        t.pc = trunc16 (s.pc.toNat + 2) ∧ Frame [rd] s t) ∧
    (encode (.ror rd rs rt) = 0b11010#5 ++ rs.bits ++ rt.bits ++ rd.bits ++ 0b10#2 ∧
      ∃ t, exec (.ror rd rs rt) s = .next t ∧
        (0 < n → (t.reg rd).toNat = (v / 2 ^ n) ||| (v * 2 ^ (16 - n) % 65536)) ∧
        (n = 0 → (t.reg rd).toNat = v) ∧
        (∀ k, k < 16 → (t.reg rd).getLsbD k = (s.reg rs).getLsbD ((k + n) % 16)) ∧
        t.pc = trunc16 (s.pc.toNat + 2) ∧ Frame [rd] s t)

/-- R140: with the amount of the low 4 bits, each register shift does exactly what its immediate twin does, and
the other bits of `Rt` have no effect. -/
def Obligations.RegisterShiftIsItsImmediateTwin : Prop :=
  ∀ (s : State) (rd rs rt : Reg) (i : BitVec 5), i.toNat % 16 = (s.reg rt).toNat % 16 →
    exec (.rol rd rs rt) s = exec (.roli rd rs i) s ∧ exec (.sll rd rs rt) s = exec (.slli rd rs i) s ∧
    exec (.ror rd rs rt) s = exec (.rori rd rs i) s ∧ exec (.sra rd rs rt) s = exec (.srai rd rs i) s

/-- R131: bit `k` of the result is bit `15 - k` of the source, and reversing twice gives the source back. -/
def Obligations.BitReverseResult : Prop :=
  ∀ (s : State) (rd rs : Reg),
    encode (.btr rd rs) = 0b11001#5 ++ rs.bits ++ 0b000#3 ++ rd.bits ++ 0b00#2 ∧
    (∀ x : Word, decodeWord (encode (.btr rd rs) ^^^ (x &&& 0x00E3#16)) = .btr rd rs) ∧
    ∃ t, exec (.btr rd rs) s = .next t ∧
      (∀ k, k < 16 → (t.reg rd).getLsbD k = (s.reg rs).getLsbD (15 - k)) ∧
      t.pc = trunc16 (s.pc.toNat + 2) ∧ Frame [rd] s t ∧
      ∃ u, exec (.btr rd rd) t = .next u ∧ u.reg rd = s.reg rs

/-- R141 to R145: exactly 1 or exactly 0, by the exact comparison or the exact unsigned sum, whatever bits 1:0 of
the word are. -/
def Obligations.SetInstructionResults : Prop :=
  ∀ (s : State) (rd rs rt : Reg),
    (encode (.seq rd rs rt) = 0b11100#5 ++ rs.bits ++ rt.bits ++ rd.bits ++ 0b00#2 ∧
      (∀ x : Word, decodeWord (encode (.seq rd rs rt) ^^^ (x &&& 0x0003#16)) = .seq rd rs rt) ∧
      ∃ t, exec (.seq rd rs rt) s = .next t ∧
        t.reg rd = (if s.reg rs = s.reg rt then 0x0001#16 else 0x0000#16) ∧
        t.pc = trunc16 (s.pc.toNat + 2) ∧ Frame [rd] s t) ∧
    (encode (.slt rd rs rt) = 0b11101#5 ++ rs.bits ++ rt.bits ++ rd.bits ++ 0b00#2 ∧
      (∀ x : Word, decodeWord (encode (.slt rd rs rt) ^^^ (x &&& 0x0003#16)) = .slt rd rs rt) ∧
      ∃ t, exec (.slt rd rs rt) s = .next t ∧
        t.reg rd = (if (s.reg rs).toInt < (s.reg rt).toInt then 0x0001#16 else 0x0000#16) ∧
        t.pc = trunc16 (s.pc.toNat + 2) ∧ Frame [rd] s t) ∧
    (encode (.sle rd rs rt) = 0b11110#5 ++ rs.bits ++ rt.bits ++ rd.bits ++ 0b00#2 ∧
      (∀ x : Word, decodeWord (encode (.sle rd rs rt) ^^^ (x &&& 0x0003#16)) = .sle rd rs rt) ∧
      ∃ t, exec (.sle rd rs rt) s = .next t ∧
        t.reg rd = (if (s.reg rs).toInt ≤ (s.reg rt).toInt then 0x0001#16 else 0x0000#16) ∧
        t.pc = trunc16 (s.pc.toNat + 2) ∧ Frame [rd] s t) ∧
    (encode (.sco rd rs rt) = 0b11111#5 ++ rs.bits ++ rt.bits ++ rd.bits ++ 0b00#2 ∧
      (∀ x : Word, decodeWord (encode (.sco rd rs rt) ^^^ (x &&& 0x0003#16)) = .sco rd rs rt) ∧
      ∃ t, exec (.sco rd rs rt) s = .next t ∧
        t.reg rd = (if 65536 ≤ (s.reg rs).toNat + (s.reg rt).toNat then 0x0001#16 else 0x0000#16) ∧
        t.pc = trunc16 (s.pc.toNat + 2) ∧ Frame [rd] s t)

/-- ADD and SCO together give the exact 17-bit sum of two registers (R132, R145). -/
def Obligations.AddAndScoGiveTheExactSum : Prop :=
  ∀ (s : State) (rd rs rt : Reg),
    ∃ t u, exec (.add rd rs rt) s = .next t ∧ exec (.sco rd rs rt) s = .next u ∧
      (u.reg rd).toNat * 65536 + (t.reg rd).toNat = (s.reg rs).toNat + (s.reg rt).toNat

/-- Where the two's complement difference does not overflow, SLT of `Rs`, `Rt` is the sign of `Rs - Rt`, and where
it does, it is the opposite (R143). -/
def Obligations.SetLessThanIsSignUnlessOverflow : Prop :=
  ∀ (s : State) (rd rs rt : Reg),
    ∃ t u, exec (.slt rd rs rt) s = .next t ∧ exec (.sub rd rt rs) s = .next u ∧
      ((-32768 ≤ (s.reg rs).toInt - (s.reg rt).toInt ∧ (s.reg rs).toInt - (s.reg rt).toInt ≤ 32767) →
        (t.reg rd = 0x0001#16 ↔ (u.reg rd).getLsbD 15 = true)) ∧
      (¬(-32768 ≤ (s.reg rs).toInt - (s.reg rt).toInt ∧ (s.reg rs).toInt - (s.reg rt).toInt ≤ 32767) →
        (t.reg rd = 0x0001#16 ↔ (u.reg rd).getLsbD 15 = false))

/-! ## Results: load immediate (44_load_immediate.md) -/

/-- R170. -/
def Obligations.LoadByteImmediateResult : Prop :=
  ∀ (s : State) (rs : Reg) (i : BitVec 8),
    encode (.lbi rs i) = 0b11000#5 ++ rs.bits ++ i ∧
    ∃ t, exec (.lbi rs i) s = .next t ∧
      t.reg rs = trunc16 i.toInt ∧
      (∀ k, k < 16 → (t.reg rs).getLsbD k = if k < 8 then i.getLsbD k else i.getLsbD 7) ∧
      t.pc = trunc16 (s.pc.toNat + 2) ∧ Frame [rs] s t

/-- R171. -/
def Obligations.ShiftInByteResult : Prop :=
  ∀ (s : State) (rs : Reg) (i : BitVec 8),
    encode (.slbi rs i) = 0b10010#5 ++ rs.bits ++ i ∧
    ∃ t, exec (.slbi rs i) s = .next t ∧
      (t.reg rs).toNat = ((s.reg rs).toNat * 256 % 65536) ||| i.toNat ∧
      (∀ k, k < 16 → (t.reg rs).getLsbD k = if k < 8 then i.getLsbD k else (s.reg rs).getLsbD (k - 8)) ∧
      t.pc = trunc16 (s.pc.toNat + 2) ∧ Frame [rs] s t

/-- R172, which the spec derives from R170 and R171: LBI of the high byte then SLBI of the low byte loads any constant, whatever the register held. -/
def Obligations.TwoInstructionsLoadAnyConstant : Prop :=
  ∀ (s : State) (rs : Reg) (hh ll : BitVec 8),
    ∃ t u, exec (.lbi rs hh) s = .next t ∧ exec (.slbi rs ll) t = .next u ∧
      (u.reg rs).toNat = hh.toNat * 256 + ll.toNat ∧ Frame [rs] s u

/-! ## Results: load and store (41_load_store.md, 20_memory.md) -/

/-- LD at every effective address: the fault at an odd one, the fault where a byte has no value, the word in the
launch's byte order otherwise (R44, R120, R122; the base register holds a value by log entry 1). -/
def Obligations.LoadResult : Prop :=
  ∀ (s : State) (rd rs : Reg) (i : BitVec 5) (ea : Word), ea = trunc16 ((s.reg rs).toNat + i.toInt) →
    encode (.ld rd rs i) = 0b10001#5 ++ rs.bits ++ rd.bits ++ i ∧
    (ea.toNat % 2 = 1 → exec (.ld rd rs i) s = .fault (.misalignedData ea)) ∧
    (ea.toNat % 2 = 0 → (Memory.get s.mem ea.toNat = none ∨ Memory.get s.mem (ea.toNat + 1) = none) →
      exec (.ld rd rs i) s = .fault (.uninitMemory ea)) ∧
    (∀ lo hi : Byte, ea.toNat % 2 = 0 →
      Memory.get s.mem ea.toNat = some lo → Memory.get s.mem (ea.toNat + 1) = some hi →
      ∃ t, exec (.ld rd rs i) s = .next t ∧
        (s.config.byteOrder = .big → (t.reg rd).toNat = lo.toNat * 256 + hi.toNat) ∧
        (s.config.byteOrder = .little → (t.reg rd).toNat = hi.toNat * 256 + lo.toNat) ∧
        t.pc = trunc16 (s.pc.toNat + 2) ∧ Frame [rd] s t)

/-- ST at every even effective address: the two bytes in the launch's byte order, both joining `Stored`, and no
register (R45, R120, R121; the registers hold values by log entry 1). -/
def Obligations.StoreResult : Prop :=
  ∀ (s : State) (rd rs : Reg) (i : BitVec 5) (ea : Word), ea = trunc16 ((s.reg rs).toNat + i.toInt) →
    encode (.st rd rs i) = 0b10000#5 ++ rs.bits ++ rd.bits ++ i ∧
    (ea.toNat % 2 = 0 →
      ∃ t, exec (.st rd rs i) s = .next t ∧
        (s.config.byteOrder = .big →
          (Memory.get t.mem ea.toNat).map BitVec.toNat = some ((s.reg rd).toNat / 256) ∧
          (Memory.get t.mem (ea.toNat + 1)).map BitVec.toNat = some ((s.reg rd).toNat % 256)) ∧
        (s.config.byteOrder = .little →
          (Memory.get t.mem ea.toNat).map BitVec.toNat = some ((s.reg rd).toNat % 256) ∧
          (Memory.get t.mem (ea.toNat + 1)).map BitVec.toNat = some ((s.reg rd).toNat / 256)) ∧
        AddrSet.has t.stored ea.toNat = true ∧ AddrSet.has t.stored (ea.toNat + 1) = true ∧
        t.pc = trunc16 (s.pc.toNat + 2) ∧ StoreFrame [] ea s t)

/-- STU at every even effective address: the OLD value of `Rd` goes to the new address, which `Rs` receives
(R120, R123, R6; the registers hold values by log entry 1). -/
def Obligations.StoreWithUpdateResult : Prop :=
  ∀ (s : State) (rd rs : Reg) (i : BitVec 5) (ea : Word), ea = trunc16 ((s.reg rs).toNat + i.toInt) →
    encode (.stu rd rs i) = 0b10011#5 ++ rs.bits ++ rd.bits ++ i ∧
    (ea.toNat % 2 = 0 →
      ∃ t, exec (.stu rd rs i) s = .next t ∧ t.reg rs = ea ∧
        t.word ea = some (s.reg rd) ∧
        (∃ u, exec (.st rd rs i) s = .next u ∧ u.mem = t.mem ∧ u.stored = t.stored) ∧
        AddrSet.has t.stored ea.toNat = true ∧ AddrSet.has t.stored (ea.toNat + 1) = true ∧
        t.pc = trunc16 (s.pc.toNat + 2) ∧ StoreFrame [rs] ea s t)

/-- LD, ST and STU at an odd effective address are the fault, and no state comes of them (R46, the spec's own
decision D5). -/
def Obligations.OddDataAddressFaults : Prop :=
  ∀ (s : State) (rd rs : Reg) (i : BitVec 5) (ea : Word), ea = trunc16 ((s.reg rs).toNat + i.toInt) →
    ea.toNat % 2 = 1 →
    exec (.ld rd rs i) s = .fault (.misalignedData ea) ∧ exec (.st rd rs i) s = .fault (.misalignedData ea) ∧
    exec (.stu rd rs i) s = .fault (.misalignedData ea)

/-- `MemRead` (R44, the spec's own decisions D3, D4, D5, D11): both byte orders, every address. -/
def Obligations.MemReadFollowsItsRule : Prop :=
  ∀ (s : State) (a : Word),
    (a.toNat % 2 = 1 → memRead s a = .fault (.misalignedData a)) ∧
    (a.toNat % 2 = 0 → (Memory.get s.mem a.toNat = none ∨ Memory.get s.mem (a.toNat + 1) = none) →
      memRead s a = .fault (.uninitMemory a)) ∧
    (∀ lo hi : Byte, a.toNat % 2 = 0 →
      Memory.get s.mem a.toNat = some lo → Memory.get s.mem (a.toNat + 1) = some hi →
      ∃ v : Word, memRead s a = .next v ∧
        (s.config.byteOrder = .big → v = lo ++ hi) ∧ (s.config.byteOrder = .little → v = hi ++ lo))

/-- `MemWrite` (R45, the spec's own decisions D3, D4, D5, D7): both byte orders, every address; nothing but the two
bytes and `Stored` changes. -/
def Obligations.MemWriteFollowsItsRule : Prop :=
  ∀ (s : State) (a v : Word),
    (a.toNat % 2 = 1 → memWrite s a v = .fault (.misalignedData a)) ∧
    (a.toNat % 2 = 0 → ∃ t, memWrite s a v = .next t ∧
      (s.config.byteOrder = .big →
        Memory.get t.mem a.toNat = some (v.extractLsb' 8 8) ∧
        Memory.get t.mem (a.toNat + 1) = some (v.extractLsb' 0 8)) ∧
      (s.config.byteOrder = .little →
        Memory.get t.mem a.toNat = some (v.extractLsb' 0 8) ∧
        Memory.get t.mem (a.toNat + 1) = some (v.extractLsb' 8 8)) ∧
      (∀ x, AddrSet.has t.stored x = true ↔ (AddrSet.has s.stored x = true ∨ x = a.toNat ∨ x = a.toNat + 1)) ∧
      (∀ x, x ≠ a.toNat → x ≠ a.toNat + 1 → Memory.get t.mem x = Memory.get s.mem x) ∧
      RegsSameExcept [] s t ∧ t.pc = s.pc ∧ ControlSame s t)

/-- A load returns the value of the last store to the same word, whatever registers and offsets address it, and a
load of another word is not affected by the store (R50, R235). -/
def Obligations.LoadReturnsTheLastStore : Prop :=
  ∀ (s t : State) (rd rs rd' rs' : Reg) (i i' : BitVec 5), exec (.st rd rs i) s = .next t →
    (effectiveAddress t rs' i' = effectiveAddress s rs i →
      ∃ u, exec (.ld rd' rs' i') t = .next u ∧ u.reg rd' = s.reg rd) ∧
    (effectiveAddress t rs' i' ≠ effectiveAddress s rs i →
      ∀ u, exec (.ld rd' rs' i') s = .next u →
        ∃ u', exec (.ld rd' rs' i') t = .next u' ∧ u'.reg rd' = u.reg rd')

/-- STU with a negative offset is a push, and LD then ADDI is the pop that undoes it (R123, R124). -/
def Obligations.PushThenPopRestores : Prop :=
  ∀ (s : State) (rd rs rd' : Reg), isOdd (s.reg rs) = false → rd' ≠ rs →
    ∃ t u v, exec (.stu rd rs 0x1E#5) s = .next t ∧ exec (.ld rd' rs 0x00#5) t = .next u ∧
      exec (.addi rs rs 0x02#5) u = .next v ∧
      t.reg rs = trunc16 (((s.reg rs).toNat : Int) - 2) ∧ v.reg rd' = s.reg rd ∧ v.reg rs = s.reg rs

/-- Code is data (R52, the spec's own decision D7): a load whose address is the pc of a state that can fetch gives the
instruction word. -/
def Obligations.LoadOfCodeGivesTheInstructionWord : Prop :=
  ∀ (s : State) (rd rs : Reg) (i : BitVec 5) (w : Word), fetch s = .next w → effectiveAddress s rs i = s.pc →
    ∃ t, exec (.ld rd rs i) s = .next t ∧ t.reg rd = w

/-! ## Results: branches and jumps (43_branches.md, 45_jumps.md) -/

/-- R161 to R163: the target where the condition holds, the next instruction where it does not, and nothing else. -/
def Obligations.BranchResults : Prop :=
  ∀ (s : State) (rs : Reg) (i : BitVec 8),
    (encode (.beqz rs i) = 0b01100#5 ++ rs.bits ++ i ∧
      ∃ t, exec (.beqz rs i) s = .next t ∧ Frame [] s t ∧
        ((s.reg rs).toNat = 0 → t.pc = trunc16 (s.pc.toNat + 2 + i.toInt)) ∧
        ((s.reg rs).toNat ≠ 0 → t.pc = trunc16 (s.pc.toNat + 2))) ∧
    (encode (.bnez rs i) = 0b01101#5 ++ rs.bits ++ i ∧
      ∃ t, exec (.bnez rs i) s = .next t ∧ Frame [] s t ∧
        ((s.reg rs).toNat ≠ 0 → t.pc = trunc16 (s.pc.toNat + 2 + i.toInt)) ∧
        ((s.reg rs).toNat = 0 → t.pc = trunc16 (s.pc.toNat + 2))) ∧
    (encode (.bltz rs i) = 0b01111#5 ++ rs.bits ++ i ∧
      ∃ t, exec (.bltz rs i) s = .next t ∧ Frame [] s t ∧
        ((s.reg rs).toInt < 0 → t.pc = trunc16 (s.pc.toNat + 2 + i.toInt)) ∧
        (0 ≤ (s.reg rs).toInt → t.pc = trunc16 (s.pc.toNat + 2)))

/-- SLT into a register followed by BNEZ on it branches exactly where the comparison holds (R143, R162, R235). -/
def Obligations.SetThenBranchFollowsTheComparison : Prop :=
  ∀ (s : State) (rd rs rt : Reg) (i : BitVec 8),
    ∃ t u, exec (.slt rd rs rt) s = .next t ∧ exec (.bnez rd i) t = .next u ∧
      u.pc = (if (s.reg rs).toInt < (s.reg rt).toInt then trunc16 (s.pc.toNat + 4 + i.toInt)
        else trunc16 (s.pc.toNat + 4))

/-- R181, R183: relative to the next instruction; JAL links, and neither reads a register. -/
def Obligations.DisplacementJumpResults : Prop :=
  ∀ (s : State) (d : BitVec 11),
    (encode (.j d) = 0b00100#5 ++ d ∧
      ∃ t, exec (.j d) s = .next t ∧ t.pc = trunc16 (s.pc.toNat + 2 + d.toInt) ∧ Frame [] s t) ∧
    (encode (.jal d) = 0b00110#5 ++ d ∧
      ∃ t, exec (.jal d) s = .next t ∧ t.reg .r7 = trunc16 (s.pc.toNat + 2) ∧
        t.pc = trunc16 (s.pc.toNat + 2 + d.toInt) ∧ Frame [.r7] s t)

/-- JR, JALR and RET: the target comes from a register's value before the instruction, R7 included (R182, R184
with decision D18, R185; the registers hold values by log entry 1). -/
def Obligations.RegisterJumpResults : Prop :=
  ∀ (s : State) (rs : Reg) (i : BitVec 8),
    (encode (.jr rs i) = 0b00101#5 ++ rs.bits ++ i ∧
      ∃ t, exec (.jr rs i) s = .next t ∧ t.pc = trunc16 ((s.reg rs).toNat + i.toInt) ∧ Frame [] s t) ∧
    (encode (.jalr rs i) = 0b00111#5 ++ rs.bits ++ i ∧
      ∃ t, exec (.jalr rs i) s = .next t ∧ t.reg .r7 = trunc16 (s.pc.toNat + 2) ∧
        t.pc = trunc16 ((s.reg rs).toNat + i.toInt) ∧ Frame [.r7] s t) ∧
    (encode .ret = 0b01110#5 ++ 0#11 ∧
      ∃ t, exec .ret s = .next t ∧ t.pc = s.reg .r7 ∧ Frame [] s t)

/-- A call and a return: after JAL or JALR, a body that never writes R7, and RET, control is at the instruction after
the call (R23, R183 to R186). -/
def Obligations.CallThenReturnComesBack : Prop :=
  ∀ (s t u : State) (call : Instr) (body : List Instr),
    ((∃ d, call = .jal d) ∨ (∃ rs i, call = .jalr rs i)) →
    (∀ i ∈ body, Reg.link ∉ writtenRegs i) →
    exec call s = .next t → execAll body t = .next u →
    ∃ v, exec .ret u = .next v ∧ v.pc = trunc16 (s.pc.toNat + 2)

/-! ## Results: HALT, NOP, and the exception (46_special.md, 60_exceptions.md) -/

/-- R190: HALT leaves the pc after itself, everything else as it was, and no step follows. -/
def Obligations.HaltResult : Prop :=
  ∀ s : State,
    encode .halt = 0x0000#16 ∧ (∀ x : BitVec 11, decodeWord (0b00000#5 ++ x) = .halt) ∧
    ∃ t, exec .halt s = .next t ∧ t.halted = true ∧ t.pc = trunc16 (s.pc.toNat + 2) ∧
      RegsSameExcept [] s t ∧ MemorySame s t ∧ t.epc = s.epc ∧ t.config = s.config ∧
      (∀ u, step t ≠ .next u) ∧ hostDump t = some (Memory.get s.mem)

/-- R191, R196: NOP only advances the pc, and so does opcode `00011` where the optional part is not built. -/
def Obligations.NopResult : Prop :=
  ∀ s : State,
    (∀ x : BitVec 11, decodeWord (0b00001#5 ++ x) = .nop ∧ decodeWord (0b00011#5 ++ x) = .rti) ∧
    (∃ t, exec .nop s = .next t ∧ t.pc = trunc16 (s.pc.toNat + 2) ∧ Frame [] s t) ∧
    (s.config.excSupport = false →
      ∃ t, exec .rti s = .next t ∧ t.pc = trunc16 (s.pc.toNat + 2) ∧ Frame [] s t)

/-- R203, R204: taking IllegalOp is EPC and the pc, and nothing else; the handler's address depends on nothing. -/
def Obligations.SiicTakesIllegalOp : Prop :=
  ∀ s : State, s.config.excSupport = true →
    ∃ t, exec .siic s = .next t ∧ t.epc = trunc16 (s.pc.toNat + 2) ∧ t.pc = 0x0002#16 ∧
      RegsSameExcept [] s t ∧ MemorySame s t ∧ t.halted = s.halted ∧ t.config = s.config

/-- SIIC without the optional part is the refusal (R194, the spec's own decision D12). -/
def Obligations.SiicIsRefusedWithoutTheOptionalPart : Prop :=
  ∀ s : State, s.config.excSupport = false → exec .siic s = .refused (.siicUnsupported s.pc)

/-- RTI with the optional part: the pc takes EPC whatever it holds and nothing else changes (R195, R206; EPC holds a
value by log entry 2). -/
def Obligations.RtiReturnsToEpc : Prop :=
  ∀ s : State, s.config.excSupport = true →
    encode .rti = 0b00011#5 ++ 0#11 ∧
    ∃ t, exec .rti s = .next t ∧ t.pc = s.epc ∧ Frame [] s t

/-- R206: RTI is `pc <- epc` and restores nothing else, and after a SIIC, a handler that executes no SIIC of its own,
and RTI, control is after the SIIC. (Where the handler does execute one, the statement holds of its last one: R207.) -/
def Obligations.HandlerReturnsAfterTheSiic : Prop :=
  ∀ (s t u : State) (handler : List Instr), s.config.excSupport = true → Instr.siic ∉ handler →
    exec .siic s = .next t → execAll handler t = .next u →
    ∃ v, exec .rti u = .next v ∧ v.pc = u.epc ∧ v.pc = trunc16 (s.pc.toNat + 2) ∧ Frame [] u v

/-! ## Rules about the whole machine -/

/-- R27: the new pc of every instruction that answers a next state, and that HALT stops the machine. -/
def Obligations.ProgramCounterAfterEveryInstruction : Prop :=
  ∀ (i : Instr) (s t : State), exec i s = .next t → t.pc = pcAfter i s ∧ (i = .halt → t.halted = true)

/-- R24, written: no instruction writes a register its row does not list; and LD, ST, STU and SIIC are the only
instructions that do not always answer. That the others always do is the model's choice: every general register
holds a value, so UninitRegister is absent (log entry 1), and EPC holds one, so UninitEPC is absent and RTI always
answers (log entry 2). -/
def Obligations.OnlyListedRegistersAreWritten : Prop :=
  ∀ (i : Instr) (s : State),
    (∀ t, exec i s = .next t → RegsSameExcept (writtenRegs i) s t) ∧
    (i.mnemonic ∉ ["LD", "ST", "STU", "SIIC"] → ∃ t, exec i s = .next t)

/-- R24, read: changing a register an instruction's row does not list as read changes nothing of what the
instruction does; the changed register keeps its new value where the row does not list it as written, and is
overwritten alike where it does. -/
def Obligations.OnlyListedRegistersAreRead : Prop :=
  ∀ (i : Instr) (s : State) (r : Reg) (v : Word), r ∉ readRegs i →
    (r ∉ writtenRegs i → exec i (s.setReg r v) = mapNext (fun t => t.setReg r v) (exec i s)) ∧
    (r ∈ writtenRegs i → exec i (s.setReg r v) = exec i s)

/-- EPC changes only by SIIC, which writes it with the address after itself (R32, R200, R202). -/
def Obligations.OnlySiicWritesEpc : Prop :=
  ∀ (i : Instr) (s t : State), exec i s = .next t →
    t.epc = if i = .siic then trunc16 (s.pc.toNat + 2) else s.epc

/-- Memory and `Stored` change only by ST and STU (R40, R45), and by them only at the two bytes of the word at the
effective address. -/
def Obligations.OnlyStoresChangeMemory : Prop :=
  ∀ (i : Instr) (s t : State), exec i s = .next t →
    MemorySame s t ∨
    ∃ rd rs imm, (i = .st rd rs imm ∨ i = .stu rd rs imm) ∧
      ∃ ea : Word, ea = trunc16 ((s.reg rs).toNat + imm.toInt) ∧ StoreFrame (writtenRegs i) ea s t

/-- A run ends only by HALT: a step from a state that could fetch leaves the machine halted exactly when the word it
fetched is a HALT (R190, R238). -/
def Obligations.OnlyHaltHalts : Prop :=
  ∀ (s t : State) (w : Word), fetch s = .next w → step s = .next t →
    (t.halted = true ↔ decodeWord w = .halt)

/-- No step changes the launch's parameters, takes a value away from a byte, or takes a byte out of `Stored`
(R33, R45, R48, R231). -/
def Obligations.StepsKeepConfigValuesAndStored : Prop :=
  ∀ s t : State, step s = .next t →
    t.config = s.config ∧
    (∀ a, (Memory.get s.mem a).isSome = true → (Memory.get t.mem a).isSome = true) ∧
    (∀ a, AddrSet.has s.stored a = true → AddrSet.has t.stored a = true)

/-- A word the run has stored to is never executed, however many steps later it is reached (R53, the spec's own
decision D7). -/
def Obligations.StoredWordsAreNeverExecuted : Prop :=
  ∀ (k : Nat) (s t : State) (rd rs : Reg) (i : BitVec 5) (u : State),
    (exec (.st rd rs i) s = .next t ∨ exec (.stu rd rs i) s = .next t) →
    run k t = .next u → u.halted = false →
    u.pc = trunc16 ((s.reg rs).toNat + i.toInt) →
    step u = .refused (.selfModifyingCode u.pc)

/-- R29 (decision D6): an instruction whose displacement, register target, link value or EPC is even keeps an even pc even. -/
def Obligations.EvenTargetsKeepThePcEven : Prop :=
  ∀ (i : Instr) (s t : State), exec i s = .next t → isOdd s.pc = false → EvenTarget i s → isOdd t.pc = false

/-- A run has at most one end (R7, R190, R231, R238): two ends of runs from one state are the same state after the
same number of steps. -/
def Obligations.RunHasAtMostOneEnd : Prop :=
  ∀ (k k' : Nat) (s t t' : State), EndsIn k s t → EndsIn k' s t' → k = k' ∧ t = t'

/-! ## Reset and the invariant -/

/-- The pc and the halted flag at reset and at every launch (R30, the spec's own decision D8). -/
def Obligations.LaunchBeginsAtZeroRunning : Prop :=
  State.reset.pc = 0x0000#16 ∧ State.reset.halted = false ∧
  ∀ (c : Config) (regs : Vector Word 8) (epc : Word) (image : Memory),
    (State.launch c regs epc image).pc = 0x0000#16 ∧ (State.launch c regs epc image).halted = false

/-- The invariant holds at reset, and at every launch whose image is in canonical form and whose EPC value is even.
That EPC is zero at reset is the model's choice (log entry 2). -/
def Obligations.ResetMeetsTheInvariant : Prop :=
  Inv State.reset ∧
  ∀ (c : Config) (regs : Vector Word 8) (epc : Word) (image : Memory), Memory.wf image → isOdd epc = false →
    Inv (State.launch c regs epc image)

/-- Every step keeps the invariant: memory and `Stored` canonical, every stored byte with a value, words stored whole,
EPC even (R33, R43, R45, R195). -/
def Obligations.EveryStepKeepsTheInvariant : Prop :=
  ∀ s t : State, Inv s → step s = .next t → Inv t

/-- The byte order is not observable by a program (R48): two machines that hold the same words, each in its own byte
order, take steps with the same outcome, and hold the same words again. -/
def Obligations.ByteOrderIsUnobservable : Prop :=
  ∀ s t : State, SameWords s t → SameOutcome (step s) (step t)
end

