-- ==== Sys2Proof/Laws/Decode.lean ====
section
/-! SUPPORT. The fields of an encoded word, one lemma per field per format, and the register fields. -/

namespace Sys2Proof

@[simp] theorem ofBits_bits (r : Reg) : Reg.ofBits r.bits = r := by cases r <;> rfl

theorem bits_ofBits (b : BitVec 3) : (Reg.ofBits b).bits = b := by revert b; decide

section J
variable (op : BitVec 5) (d : BitVec 11)

@[simp] theorem opcode_encodeJ : opcodeField (encodeJ op d) = op := by
  simp only [opcodeField, encodeJ]; exact BitVec.extractLsb'_append_eq_left ..
@[simp] theorem disp_encodeJ : dispField (encodeJ op d) = d := by
  simp only [dispField, encodeJ]; exact BitVec.extractLsb'_append_eq_right ..

end J

@[simp] theorem opcode_encodeBare (op : BitVec 5) : opcodeField (encodeBare op) = op := by
  simp only [opcodeField, encodeBare]; exact BitVec.extractLsb'_append_eq_left ..

/-- A field of a word built from parts, bit by bit: the shape of every field lemma below. -/
theorem field_ext {n : Nat} {w : Word} {lo : Nat} {f : BitVec n}
    (h : ∀ i, i < n → w.getLsbD (lo + i) = f.getLsbD i) : w.extractLsb' lo n = f := by
  apply BitVec.eq_of_getLsbD_eq
  intro i hi
  simp [hi, h i hi]

section I1
variable (op : BitVec 5) (rs rd : Reg) (i : BitVec 5)

theorem bits_encodeI1 (k : Nat) : (encodeI1 op rs rd i).getLsbD k =
    if k < 5 then i.getLsbD k else if k < 8 then rd.bits.getLsbD (k - 5)
    else if k < 11 then rs.bits.getLsbD (k - 8) else op.getLsbD (k - 11) := by
  have h8 : k - 5 < 3 ↔ k < 8 := by omega
  have h11 : k - (5 + 3) < 3 ↔ k < 11 := by omega
  unfold encodeI1
  simp only [BitVec.getLsbD_append, Nat.sub_sub, h8, h11]

@[simp] theorem opcode_encodeI1 : opcodeField (encodeI1 op rs rd i) = op := by
  refine field_ext fun k hk => ?_
  rw [bits_encodeI1, if_neg (by omega), if_neg (by omega), if_neg (by omega)]; congr 1; omega
@[simp] theorem rs_encodeI1 : rsField (encodeI1 op rs rd i) = rs := by
  rw [rsField, field_ext (f := rs.bits), ofBits_bits]
  intro k hk
  rw [bits_encodeI1, if_neg (by omega), if_neg (by omega), if_pos (by omega)]; congr 1; omega
@[simp] theorem mid_encodeI1 : midField (encodeI1 op rs rd i) = rd := by
  rw [midField, field_ext (f := rd.bits), ofBits_bits]
  intro k hk
  rw [bits_encodeI1, if_neg (by omega), if_pos (by omega)]; congr 1; omega
@[simp] theorem imm5_encodeI1 : imm5Field (encodeI1 op rs rd i) = i := by
  refine field_ext fun k hk => ?_
  rw [bits_encodeI1, if_pos (by omega)]; congr 1; omega

end I1

section I2
variable (op : BitVec 5) (rs : Reg) (i : BitVec 8)

theorem bits_encodeI2 (k : Nat) : (encodeI2 op rs i).getLsbD k =
    if k < 8 then i.getLsbD k else if k < 11 then rs.bits.getLsbD (k - 8) else op.getLsbD (k - 11) := by
  have h11 : k - 8 < 3 ↔ k < 11 := by omega
  unfold encodeI2
  simp only [BitVec.getLsbD_append, Nat.sub_sub, h11]

@[simp] theorem opcode_encodeI2 : opcodeField (encodeI2 op rs i) = op := by
  refine field_ext fun k hk => ?_
  rw [bits_encodeI2, if_neg (by omega), if_neg (by omega)]; congr 1; omega
@[simp] theorem rs_encodeI2 : rsField (encodeI2 op rs i) = rs := by
  rw [rsField, field_ext (f := rs.bits), ofBits_bits]
  intro k hk
  rw [bits_encodeI2, if_neg (by omega), if_pos (by omega)]; congr 1; omega
@[simp] theorem imm8_encodeI2 : imm8Field (encodeI2 op rs i) = i := by
  refine field_ext fun k hk => ?_
  rw [bits_encodeI2, if_pos (by omega)]; congr 1; omega

end I2

section R
variable (op : BitVec 5) (rs : Reg) (mid : BitVec 3) (rd : Reg) (funct : BitVec 2)

theorem bits_encodeR (k : Nat) : (encodeR op rs mid rd funct).getLsbD k =
    if k < 2 then funct.getLsbD k else if k < 5 then rd.bits.getLsbD (k - 2)
    else if k < 8 then mid.getLsbD (k - 5) else if k < 11 then rs.bits.getLsbD (k - 8) else op.getLsbD (k - 11) := by
  have h5 : k - 2 < 3 ↔ k < 5 := by omega
  have h8 : k - (2 + 3) < 3 ↔ k < 8 := by omega
  have h11 : k - (2 + 3 + 3) < 3 ↔ k < 11 := by omega
  unfold encodeR
  simp only [BitVec.getLsbD_append, Nat.sub_sub, h5, h8, h11]

@[simp] theorem opcode_encodeR : opcodeField (encodeR op rs mid rd funct) = op := by
  refine field_ext fun k hk => ?_
  rw [bits_encodeR, if_neg (by omega), if_neg (by omega), if_neg (by omega), if_neg (by omega)]; congr 1; omega
@[simp] theorem rs_encodeR : rsField (encodeR op rs mid rd funct) = rs := by
  rw [rsField, field_ext (f := rs.bits), ofBits_bits]
  intro k hk
  rw [bits_encodeR, if_neg (by omega), if_neg (by omega), if_neg (by omega), if_pos (by omega)]; congr 1; omega
@[simp] theorem mid_encodeR : midField (encodeR op rs mid rd funct) = Reg.ofBits mid := by
  rw [midField, field_ext (f := mid)]
  intro k hk
  rw [bits_encodeR, if_neg (by omega), if_neg (by omega), if_pos (by omega)]; congr 1; omega
@[simp] theorem rd_encodeR : rdFieldR (encodeR op rs mid rd funct) = rd := by
  rw [rdFieldR, field_ext (f := rd.bits), ofBits_bits]
  intro k hk
  rw [bits_encodeR, if_neg (by omega), if_pos (by omega)]; congr 1; omega
theorem funct_encodeR (k : Nat) (h : k < 2) : (encodeR op rs mid rd funct).getLsbD k = funct.getLsbD k := by
  rw [bits_encodeR, if_pos h]

end R

/-- The five bits the decoder matches on are the bits of the opcode field. -/
theorem opcode_bit (w : Word) (k : Nat) (h : k < 5) : w.getLsbD (11 + k) = (opcodeField w).getLsbD k := by
  simp [opcodeField, h]

/-! A word put together again from the fields the decoder reads. -/

theorem encodeJ_fields (w : Word) : encodeJ (opcodeField w) (dispField w) = w := by
  apply BitVec.eq_of_getLsbD_eq
  intro k hk
  simp only [encodeJ, opcodeField, dispField, BitVec.getLsbD_append, BitVec.getLsbD_extractLsb']
  by_cases h : k < 11
  · simp [h]
  · simp [h, show k - 11 < 5 by omega, show 11 + (k - 11) = k by omega]

theorem encodeI1_fields (w : Word) : encodeI1 (opcodeField w) (rsField w) (midField w) (imm5Field w) = w := by
  apply BitVec.eq_of_getLsbD_eq
  intro k hk
  rw [bits_encodeI1]
  simp only [rsField, midField, imm5Field, opcodeField, bits_ofBits, BitVec.getLsbD_extractLsb']
  split
  · next h => simp [h]
  · split
    · simp [show k - 5 < 3 by omega, show 5 + (k - 5) = k by omega]
    · split
      · simp [show k - 8 < 3 by omega, show 8 + (k - 8) = k by omega]
      · simp [show k - 11 < 5 by omega, show 11 + (k - 11) = k by omega]

theorem encodeI2_fields (w : Word) : encodeI2 (opcodeField w) (rsField w) (imm8Field w) = w := by
  apply BitVec.eq_of_getLsbD_eq
  intro k hk
  rw [bits_encodeI2]
  simp only [rsField, imm8Field, opcodeField, bits_ofBits, BitVec.getLsbD_extractLsb']
  split
  · next h => simp [h]
  · split
    · simp [show k - 8 < 3 by omega, show 8 + (k - 8) = k by omega]
    · simp [show k - 11 < 5 by omega, show 11 + (k - 11) = k by omega]

theorem encodeR_fields (w : Word) :
    encodeR (opcodeField w) (rsField w) (w.extractLsb' 5 3) (rdFieldR w) (w.extractLsb' 0 2) = w := by
  apply BitVec.eq_of_getLsbD_eq
  intro k hk
  rw [bits_encodeR]
  simp only [rsField, rdFieldR, opcodeField, bits_ofBits, BitVec.getLsbD_extractLsb']
  split
  · next h => simp [h]
  · split
    · simp [show k - 2 < 3 by omega, show 2 + (k - 2) = k by omega]
    · split
      · simp [show k - 5 < 3 by omega, show 5 + (k - 5) = k by omega]
      · split
        · simp [show k - 8 < 3 by omega, show 8 + (k - 8) = k by omega]
        · simp [show k - 11 < 5 by omega, show 11 + (k - 11) = k by omega]

/-- The five bits decide the opcode field. -/
theorem opcodeField_eq_iff (w : Word) (op : BitVec 5) :
    opcodeField w = op ↔ w.getLsbD 15 = op.getLsbD 4 ∧ w.getLsbD 14 = op.getLsbD 3 ∧
      w.getLsbD 13 = op.getLsbD 2 ∧ w.getLsbD 12 = op.getLsbD 1 ∧ w.getLsbD 11 = op.getLsbD 0 := by
  constructor
  · rintro rfl
    exact ⟨opcode_bit w 4 (by omega), opcode_bit w 3 (by omega), opcode_bit w 2 (by omega),
      opcode_bit w 1 (by omega), opcode_bit w 0 (by omega)⟩
  · rintro ⟨h4, h3, h2, h1, h0⟩
    refine field_ext fun i hi => ?_
    match i, hi with
    | 0, _ => exact h0
    | 1, _ => exact h1
    | 2, _ => exact h2
    | 3, _ => exact h3
    | 4, _ => exact h4

/-- The byte decoder on two bytes is the word decoder on the word they make, in either order. -/
theorem decode_two (o : ByteOrder) (b0 b1 : Byte) (rest : List Byte) :
    decode o (b0 :: b1 :: rest) = .ok (decodeWord (wordOfBytes o b0 b1), rest) := rfl

end Sys2Proof
end

