-- ==== Sys2Proof/Laws/State.lean ====
section
/-! SUPPORT. One lemma per field per update of `State`, and the laws of the register file. -/

namespace Sys2Proof.Machine

section Fields
variable (s : State) (r r' : Reg) (v t a : Word)

@[simp] theorem setReg_config : (s.setReg r v).config = s.config := rfl
@[simp] theorem setReg_pc : (s.setReg r v).pc = s.pc := rfl
@[simp] theorem setReg_epc : (s.setReg r v).epc = s.epc := rfl
@[simp] theorem setReg_halted : (s.setReg r v).halted = s.halted := rfl
@[simp] theorem setReg_mem : (s.setReg r v).mem = s.mem := rfl
@[simp] theorem setReg_stored : (s.setReg r v).stored = s.stored := rfl
@[simp] theorem setReg_nextPc : (s.setReg r v).nextPc = s.nextPc := rfl
@[simp] theorem setReg_word : (s.setReg r v).word a = s.word a := rfl

@[simp] theorem setPc_config : (s.setPc t).config = s.config := rfl
@[simp] theorem setPc_regs : (s.setPc t).regs = s.regs := rfl
@[simp] theorem setPc_reg : (s.setPc t).reg r = s.reg r := rfl
@[simp] theorem setPc_pc : (s.setPc t).pc = t := rfl
@[simp] theorem setPc_epc : (s.setPc t).epc = s.epc := rfl
@[simp] theorem setPc_halted : (s.setPc t).halted = s.halted := rfl
@[simp] theorem setPc_mem : (s.setPc t).mem = s.mem := rfl
@[simp] theorem setPc_stored : (s.setPc t).stored = s.stored := rfl
@[simp] theorem setPc_word : (s.setPc t).word a = s.word a := rfl

@[simp] theorem storeWord_config : (s.storeWord a v).config = s.config := rfl
@[simp] theorem storeWord_regs : (s.storeWord a v).regs = s.regs := rfl
@[simp] theorem storeWord_reg : (s.storeWord a v).reg r = s.reg r := rfl
@[simp] theorem storeWord_pc : (s.storeWord a v).pc = s.pc := rfl
@[simp] theorem storeWord_epc : (s.storeWord a v).epc = s.epc := rfl
@[simp] theorem storeWord_halted : (s.storeWord a v).halted = s.halted := rfl
@[simp] theorem storeWord_mem :
    (s.storeWord a v).mem = Memory.setWord s.config.byteOrder s.mem a v := rfl
@[simp] theorem storeWord_stored :
    (s.storeWord a v).stored = AddrSet.insert (AddrSet.insert s.stored a.toNat) (a.toNat + 1) := rfl
@[simp] theorem storeWord_nextPc : (s.storeWord a v).nextPc = s.nextPc := rfl

@[simp] theorem takeIllegalOp_config : (takeIllegalOp s).config = s.config := rfl
@[simp] theorem takeIllegalOp_regs : (takeIllegalOp s).regs = s.regs := rfl
@[simp] theorem takeIllegalOp_reg : (takeIllegalOp s).reg r = s.reg r := rfl
@[simp] theorem takeIllegalOp_pc : (takeIllegalOp s).pc = handlerAddr := rfl
@[simp] theorem takeIllegalOp_epc : (takeIllegalOp s).epc = s.nextPc := rfl
@[simp] theorem takeIllegalOp_halted : (takeIllegalOp s).halted = s.halted := rfl
@[simp] theorem takeIllegalOp_mem : (takeIllegalOp s).mem = s.mem := rfl
@[simp] theorem takeIllegalOp_stored : (takeIllegalOp s).stored = s.stored := rfl

@[simp] theorem returnFromException_config : (returnFromException s).config = s.config := rfl
@[simp] theorem returnFromException_regs : (returnFromException s).regs = s.regs := rfl
@[simp] theorem returnFromException_reg : (returnFromException s).reg r = s.reg r := rfl
@[simp] theorem returnFromException_pc : (returnFromException s).pc = s.epc := rfl
@[simp] theorem returnFromException_epc : (returnFromException s).epc = s.epc := rfl
@[simp] theorem returnFromException_halted : (returnFromException s).halted = s.halted := rfl
@[simp] theorem returnFromException_mem : (returnFromException s).mem = s.mem := rfl
@[simp] theorem returnFromException_stored : (returnFromException s).stored = s.stored := rfl

@[simp] theorem stopMachine_config : (stopMachine s).config = s.config := rfl
@[simp] theorem stopMachine_regs : (stopMachine s).regs = s.regs := rfl
@[simp] theorem stopMachine_reg : (stopMachine s).reg r = s.reg r := rfl
@[simp] theorem stopMachine_pc : (stopMachine s).pc = s.nextPc := rfl
@[simp] theorem stopMachine_epc : (stopMachine s).epc = s.epc := rfl
@[simp] theorem stopMachine_halted : (stopMachine s).halted = true := rfl
@[simp] theorem stopMachine_mem : (stopMachine s).mem = s.mem := rfl
@[simp] theorem stopMachine_stored : (stopMachine s).stored = s.stored := rfl

@[simp] theorem placeForFetch_config : (s.placeForFetch v).config = s.config := rfl
@[simp] theorem placeForFetch_regs : (s.placeForFetch v).regs = s.regs := rfl
@[simp] theorem placeForFetch_reg : (s.placeForFetch v).reg r = s.reg r := rfl
@[simp] theorem placeForFetch_pc : (s.placeForFetch v).pc = s.pc &&& 0xFFFE#16 := rfl
@[simp] theorem placeForFetch_epc : (s.placeForFetch v).epc = s.epc := rfl
@[simp] theorem placeForFetch_halted : (s.placeForFetch v).halted = false := rfl
@[simp] theorem placeForFetch_mem : (s.placeForFetch v).mem =
    Memory.setWord s.config.byteOrder s.mem (s.pc &&& 0xFFFE#16) v := rfl
@[simp] theorem placeForFetch_stored : (s.placeForFetch v).stored =
    AddrSet.remove (AddrSet.remove s.stored (s.pc &&& 0xFFFE#16).toNat) ((s.pc &&& 0xFFFE#16).toNat + 1) := rfl

end Fields

theorem regIndex_injective : Function.Injective regIndex := by
  intro a b; cases a <;> cases b <;> decide

@[simp] theorem reg_setReg_same (s : State) (r : Reg) (v : Word) : (s.setReg r v).reg r = v := by
  simp [State.reg, State.setReg]

theorem reg_setReg_ne {s : State} {r r' : Reg} {v : Word} (h : r' ≠ r) : (s.setReg r v).reg r' = s.reg r' := by
  have hi : (regIndex r).val ≠ (regIndex r').val := fun e => h (regIndex_injective (Fin.ext e.symm))
  simp [State.reg, State.setReg, hi]

/-- The register file after a write, in one equation. -/
theorem reg_setReg (s : State) (r r' : Reg) (v : Word) :
    (s.setReg r v).reg r' = if r' = r then v else s.reg r' := by
  split
  · next h => subst h; exact reg_setReg_same ..
  · next h => exact reg_setReg_ne h

theorem setReg_setReg_same (s : State) (r : Reg) (v w : Word) : (s.setReg r v).setReg r w = s.setReg r w := by
  simp [State.setReg, Vector.set_set]

theorem setReg_comm {s : State} {r r' : Reg} (h : r ≠ r') (v w : Word) :
    (s.setReg r v).setReg r' w = (s.setReg r' w).setReg r v := by
  have hi : (regIndex r).val ≠ (regIndex r').val := fun e => h (regIndex_injective (Fin.ext e))
  simp only [State.setReg]
  rw [Vector.set_comm _ _ hi]

theorem setReg_setPc (s : State) (r : Reg) (v t : Word) : (s.setPc t).setReg r v = (s.setReg r v).setPc t := rfl

/-- Reading a register after writing it is what decides a register file: two states with the same registers. -/
theorem regs_ext {s t : State} (h : ∀ r, t.reg r = s.reg r) : t.regs = s.regs := by
  apply Vector.ext
  intro i hi
  have h0 := h .r0; have h1 := h .r1; have h2 := h .r2; have h3 := h .r3
  have h4 := h .r4; have h5 := h .r5; have h6 := h .r6; have h7 := h .r7
  simp only [State.reg, regIndex] at h0 h1 h2 h3 h4 h5 h6 h7
  match i, hi with
  | 0, _ => exact h0
  | 1, _ => exact h1
  | 2, _ => exact h2
  | 3, _ => exact h3
  | 4, _ => exact h4
  | 5, _ => exact h5
  | 6, _ => exact h6
  | 7, _ => exact h7

end Sys2Proof.Machine
end

