-- ==== Sys2Proof/Laws/Memory.lean ====
section
/-! SUPPORT. The laws of memory and of `Stored`: a read after a write, everything else left alone, and the canonical
forms kept by every operation. None of the read laws needs the canonical form. -/

namespace Sys2Proof.Machine

/-! ## Bytes and words -/

@[simp] theorem wordOfBytes_bytes (o : ByteOrder) (w : Word) :
    wordOfBytes o (lowAddressByte o w) (highAddressByte o w) = w := by
  cases o <;> simp only [wordOfBytes, lowAddressByte, highAddressByte] <;>
    · apply BitVec.eq_of_getLsbD_eq
      intro i hi
      simp only [BitVec.getLsbD_append, BitVec.getLsbD_extractLsb']
      by_cases h : i < 8
      · simp [h]
      · have h8 : i - 8 < 8 := by omega
        have he : 8 + (i - 8) = i := by omega
        simp [h, h8, he]

theorem isOdd_eq (a : Word) : isOdd a = decide (a.toNat % 2 = 1) := by
  simp only [isOdd, BitVec.getLsbD, Nat.testBit_zero]

theorem toNat_succ_lt {a : Word} (h : isOdd a = false) : a.toNat + 1 < memBytes := by
  have := a.isLt
  rw [isOdd_eq] at h
  simp only [decide_eq_false_iff_not, memBytes] at *
  omega

@[simp] theorem isOdd_and_even (a : Word) : isOdd (a &&& 0xFFFE#16) = false := by
  simp [isOdd]

/-- An even address is left as it is by clearing bit 0. -/
theorem and_even_eq {a : Word} (h : isOdd a = false) : a &&& 0xFFFE#16 = a := by
  apply BitVec.eq_of_getLsbD_eq
  intro i hi
  rcases Nat.eq_zero_or_pos i with rfl | hp
  · simpa [isOdd] using h
  · have hb : ∀ j : Fin 16, 0 < j.val → (0xFFFE#16).getLsbD j.val = true := by decide
    simp [BitVec.getLsbD_and, hb ⟨i, hi⟩ hp]

/-! ## One byte -/

@[simp] theorem get_set_same (m : Memory) (a : Nat) (b : Byte) : Memory.get (Memory.set m a b) a = some b := by
  induction m with
  | nil => simp [Memory.set, Memory.get]
  | cons c rest ih =>
    obtain ⟨x, v⟩ := c
    simp only [Memory.set]
    split
    · simp [Memory.get]
    · split
      · simp [Memory.get]
      · next h => simp [Memory.get, h, ih]

theorem get_set_ne {m : Memory} {a a' : Nat} {b : Byte} (h : a' ≠ a) :
    Memory.get (Memory.set m a b) a' = Memory.get m a' := by
  induction m with
  | nil => simp [Memory.set, Memory.get, h]
  | cons c rest ih =>
    obtain ⟨x, v⟩ := c
    simp only [Memory.set]
    split
    · simp [Memory.get, h]
    · split
      · next hx => subst hx; simp [Memory.get, h]
      · simp [Memory.get, ih]

theorem mem_keys_set {m : Memory} {a : Nat} {b : Byte} {c : Host.Cell} (h : c ∈ Memory.set m a b) :
    c.1 = a ∨ c ∈ m := by
  induction m with
  | nil => simp [Memory.set] at h; simp [h]
  | cons d rest ih =>
    obtain ⟨x, v⟩ := d
    simp only [Memory.set] at h
    split at h
    · rcases List.mem_cons.1 h with rfl | h'
      · exact .inl rfl
      · exact .inr h'
    · split at h
      · rcases List.mem_cons.1 h with rfl | h'
        · exact .inl rfl
        · exact .inr (List.mem_cons_of_mem _ h')
      · rcases List.mem_cons.1 h with rfl | h'
        · exact .inr (by simp)
        · exact (ih h').imp id (List.mem_cons_of_mem _)

/-- Writing a byte keeps memory in canonical form. -/
theorem set_wf {m : Memory} {a : Nat} {b : Byte} (hm : Memory.wf m) (ha : a < memBytes) :
    Memory.wf (Memory.set m a b) := by
  refine ⟨?_, fun c hc => (mem_keys_set hc).elim (fun h => h ▸ ha) (hm.2 c)⟩
  obtain ⟨hp, -⟩ := hm
  induction m with
  | nil => simp [Memory.set]
  | cons d rest ih =>
    obtain ⟨x, v⟩ := d
    rw [List.pairwise_cons] at hp
    simp only [Memory.set]
    split
    · next h =>
      refine List.pairwise_cons.2 ⟨fun c hc => ?_, List.pairwise_cons.2 hp⟩
      rcases List.mem_cons.1 hc with rfl | hc
      · exact h
      · exact Nat.lt_trans h (hp.1 c hc)
    · split
      · next h => subst h; exact List.pairwise_cons.2 hp
      · next h1 h2 =>
        refine List.pairwise_cons.2 ⟨fun c hc => ?_, ih hp.2⟩
        rcases mem_keys_set hc with h | h
        · simp only [h]; omega
        · exact hp.1 c h

theorem ofCells_wf {cells : List Host.Cell} (h : ∀ c ∈ cells, c.1 < memBytes) : Memory.wf (Memory.ofCells cells) := by
  have key : ∀ (l : List Host.Cell) (m : Memory), (∀ c ∈ l, c.1 < memBytes) → Memory.wf m →
      Memory.wf (l.foldl (fun m c => Memory.set m c.1 c.2) m) := by
    intro l
    induction l with
    | nil => intro m _ hm; exact hm
    | cons c rest ih =>
      intro m hl hm
      exact ih _ (fun d hd => hl d (List.mem_cons_of_mem _ hd)) (set_wf hm (hl c (by simp)))
  exact key cells [] h ⟨List.Pairwise.nil, by simp⟩

/-- In canonical form the cells are exactly the bytes that have a value. -/
theorem get_eq_some_iff {m : Memory} (hm : Memory.wf m) (a : Nat) (b : Byte) :
    Memory.get m a = some b ↔ (a, b) ∈ m := by
  obtain ⟨hp, -⟩ := hm
  induction m with
  | nil => simp [Memory.get]
  | cons d rest ih =>
    obtain ⟨x, v⟩ := d
    rw [List.pairwise_cons] at hp
    simp only [Memory.get]
    split
    · next h =>
      subst h
      constructor
      · intro e; simp only [Option.some.injEq] at e; simp [e]
      · intro e
        rcases List.mem_cons.1 e with e | e
        · simp only [Prod.mk.injEq, true_and] at e; simp [e]
        · exact absurd (hp.1 _ e) (Nat.lt_irrefl _)
    · next h => rw [ih hp.2]; simp [h]

/-! ## One word -/

@[simp] theorem getWord_setWord_same (o : ByteOrder) (m : Memory) (a v : Word) :
    Memory.getWord o (Memory.setWord o m a v) a = some v := by
  have h : a.toNat ≠ a.toNat + 1 := by omega
  simp [Memory.getWord, Memory.setWord, get_set_ne h]

theorem get_setWord_ne {o : ByteOrder} {m : Memory} {a v : Word} {x : Nat} (h0 : x ≠ a.toNat)
    (h1 : x ≠ a.toNat + 1) : Memory.get (Memory.setWord o m a v) x = Memory.get m x := by
  simp [Memory.setWord, get_set_ne h0, get_set_ne h1]

@[simp] theorem get_setWord_low (o : ByteOrder) (m : Memory) (a v : Word) :
    Memory.get (Memory.setWord o m a v) a.toNat = some (lowAddressByte o v) := by
  have h : a.toNat ≠ a.toNat + 1 := by omega
  simp [Memory.setWord, get_set_ne h]

@[simp] theorem get_setWord_high (o : ByteOrder) (m : Memory) (a v : Word) :
    Memory.get (Memory.setWord o m a v) (a.toNat + 1) = some (highAddressByte o v) := by
  simp [Memory.setWord]

/-- Words at different even addresses share no byte. -/
theorem even_toNat_ne {a b : Word} (ha : isOdd a = false) (hb : isOdd b = false) (h : a ≠ b) :
    a.toNat ≠ b.toNat ∧ a.toNat ≠ b.toNat + 1 ∧ a.toNat + 1 ≠ b.toNat := by
  rw [isOdd_eq] at ha hb
  have hn : a.toNat ≠ b.toNat := fun e => h (BitVec.eq_of_toNat_eq e)
  simp only [decide_eq_false_iff_not] at ha hb
  omega

theorem getWord_setWord_ne {o : ByteOrder} {m : Memory} {a b v : Word} (ha : isOdd a = false)
    (hb : isOdd b = false) (h : b ≠ a) : Memory.getWord o (Memory.setWord o m a v) b = Memory.getWord o m b := by
  obtain ⟨h0, h1, h2⟩ := even_toNat_ne hb ha h
  simp only [Memory.getWord]
  rw [get_setWord_ne h0 h1, get_setWord_ne h2 (by omega)]

theorem setWord_wf {o : ByteOrder} {m : Memory} {a v : Word} (hm : Memory.wf m) (ha : isOdd a = false) :
    Memory.wf (Memory.setWord o m a v) :=
  set_wf (set_wf hm (by have := toNat_succ_lt ha; omega)) (toNat_succ_lt ha)

/-- A word has a value exactly when both its bytes have one. -/
theorem getWord_isSome (o : ByteOrder) (m : Memory) (a : Word) :
    (Memory.getWord o m a).isSome = ((Memory.get m a.toNat).isSome && (Memory.get m (a.toNat + 1)).isSome) := by
  unfold Memory.getWord
  cases Memory.get m a.toNat <;> cases Memory.get m (a.toNat + 1) <;> rfl

/-! ## `Stored` -/

theorem has_iff (l : AddrSet) (a : Nat) : AddrSet.has l a = true ↔ a ∈ l := by
  simp [AddrSet.has]

theorem mem_insert_iff (l : AddrSet) (a x : Nat) : x ∈ AddrSet.insert l a ↔ x = a ∨ x ∈ l := by
  induction l with
  | nil => simp [AddrSet.insert]
  | cons y rest ih =>
    simp only [AddrSet.insert]
    split
    · simp
    · split
      · next h => subst h; simp
      · simp only [List.mem_cons, ih]; tauto

@[simp] theorem has_insert (l : AddrSet) (a x : Nat) :
    AddrSet.has (AddrSet.insert l a) x = (decide (x = a) || AddrSet.has l x) := by
  rw [Bool.eq_iff_iff, has_iff, mem_insert_iff, Bool.or_eq_true, has_iff, decide_eq_true_eq]

@[simp] theorem has_remove (l : AddrSet) (a x : Nat) :
    AddrSet.has (AddrSet.remove l a) x = (decide (x ≠ a) && AddrSet.has l x) := by
  rw [Bool.eq_iff_iff, has_iff, Bool.and_eq_true, has_iff, decide_eq_true_eq]
  simp [AddrSet.remove, and_comm]

/-- Adding an address keeps `Stored` in canonical form. -/
theorem insert_wf {l : AddrSet} {a : Nat} (hl : AddrSet.wf l) (ha : a < memBytes) : AddrSet.wf (AddrSet.insert l a) := by
  refine ⟨?_, fun x hx => ((mem_insert_iff l a x).1 hx).elim (fun h => h ▸ ha) (hl.2 x)⟩
  obtain ⟨hp, -⟩ := hl
  induction l with
  | nil => simp [AddrSet.insert]
  | cons y rest ih =>
    rw [List.pairwise_cons] at hp
    simp only [AddrSet.insert]
    split
    · next h =>
      refine List.pairwise_cons.2 ⟨fun c hc => ?_, List.pairwise_cons.2 hp⟩
      rcases List.mem_cons.1 hc with rfl | hc
      · exact h
      · exact Nat.lt_trans h (hp.1 c hc)
    · split
      · exact List.pairwise_cons.2 hp
      · next h1 h2 =>
        refine List.pairwise_cons.2 ⟨fun c hc => ?_, ih hp.2⟩
        rcases (mem_insert_iff rest a c).1 hc with h | h
        · omega
        · exact hp.1 c h

theorem remove_wf {l : AddrSet} (a : Nat) (hl : AddrSet.wf l) : AddrSet.wf (AddrSet.remove l a) :=
  ⟨hl.1.filter _, fun x hx => hl.2 x (List.mem_filter.1 hx).1⟩

/-- What a store adds to `Stored`: its two bytes and nothing else. -/
theorem storeWord_has (s : State) (a v : Word) (x : Nat) :
    AddrSet.has (s.storeWord a v).stored x =
      (decide (x = a.toNat + 1) || (decide (x = a.toNat) || AddrSet.has s.stored x)) := by
  simp

end Sys2Proof.Machine
end

