-- ==== Sys2Proof/Laws/Ops.lean ====
section
/-! SUPPORT. One lemma per shared operation that says everything it can do, and the equation of `exec` at each
instruction: what the provers cite instead of unfolding. -/

namespace Sys2Proof.Machine

@[simp] theorem andThen_next {α β : Type} (a : α) (f : α → Host.Outcome β Fault Refusal) :
    andThen (.next a) f = f a := rfl
@[simp] theorem andThen_fault {α β : Type} (r : Fault) (f : α → Host.Outcome β Fault Refusal) :
    andThen (.fault r) f = .fault r := rfl
@[simp] theorem andThen_refused {α β : Type} (r : Refusal) (f : α → Host.Outcome β Fault Refusal) :
    andThen (.refused r) f = .refused r := rfl

/-- If a sequence answers a next state, both its parts did. -/
theorem andThen_eq_next {α β : Type} {o : Host.Outcome α Fault Refusal} {f : α → Host.Outcome β Fault Refusal} {b : β} :
    andThen o f = .next b ↔ ∃ a, o = .next a ∧ f a = .next b := by
  cases o <;> simp [andThen]

/-- `writeBack` always answers. -/
theorem writeBack_eq (rd : Reg) (v : Word) (s : State) :
    writeBack rd v s = .next ((s.setReg rd v).setPc s.nextPc) := rfl

/-- `jumpTo` always answers. -/
theorem jumpTo_eq (t : Word) (s : State) : jumpTo t s = .next (s.setPc t) := rfl

/-- `branchIf` always answers: it writes the pc and nothing else. -/
theorem branchIf_eq (c : Bool) (i : BitVec 8) (s : State) :
    branchIf c i s = .next (s.setPc (if c then branchTarget s i else s.nextPc)) := rfl

/-- `linkAndJump` always answers: R7 and the pc. -/
theorem linkAndJump_eq (t : Word) (s : State) :
    linkAndJump t s = .next ((s.setReg Reg.link s.nextPc).setPc t) := rfl

/-- Everything `memRead` can do. -/
theorem memRead_cases (s : State) (a : Word) :
    (isOdd a = true ∧ memRead s a = .fault (.misalignedData a)) ∨
    (isOdd a = false ∧ s.word a = none ∧ memRead s a = .fault (.uninitMemory a)) ∨
    (∃ v, isOdd a = false ∧ s.word a = some v ∧ memRead s a = .next v) := by
  unfold memRead
  cases h : isOdd a
  · cases hw : s.word a
    · exact .inr (.inl ⟨rfl, rfl, by simp⟩)
    · next v => exact .inr (.inr ⟨v, rfl, rfl, by simp⟩)
  · exact .inl ⟨rfl, by simp⟩

theorem memRead_eq_next {s : State} {a v : Word} :
    memRead s a = .next v ↔ isOdd a = false ∧ s.word a = some v := by
  rcases memRead_cases s a with ⟨h, e⟩ | ⟨h, hw, e⟩ | ⟨u, h, hw, e⟩ <;> simp [*]

/-- Everything `memWrite` can do. -/
theorem memWrite_eq (s : State) (a v : Word) :
    memWrite s a v = if isOdd a then .fault (.misalignedData a) else .next (s.storeWord a v) := rfl

theorem memWrite_eq_next {s t : State} {a v : Word} :
    memWrite s a v = .next t ↔ isOdd a = false ∧ t = s.storeWord a v := by
  cases h : isOdd a <;> simp [memWrite, h, eq_comm]

/-- Everything `fetch` can do, in the order R7 checks it. -/
theorem fetch_cases (s : State) :
    (s.halted = true ∧ fetch s = .fault .halted) ∨
    (s.halted = false ∧ isOdd s.pc = true ∧ fetch s = .fault (.misalignedFetch s.pc)) ∨
    (s.halted = false ∧ isOdd s.pc = false ∧
      (AddrSet.has s.stored s.pc.toNat || AddrSet.has s.stored (s.pc.toNat + 1)) = true ∧
      fetch s = .refused (.selfModifyingCode s.pc)) ∨
    (s.halted = false ∧ isOdd s.pc = false ∧
      (AddrSet.has s.stored s.pc.toNat || AddrSet.has s.stored (s.pc.toNat + 1)) = false ∧
      s.word s.pc = none ∧ fetch s = .fault (.uninitMemory s.pc)) ∨
    (∃ w, s.halted = false ∧ isOdd s.pc = false ∧
      (AddrSet.has s.stored s.pc.toNat || AddrSet.has s.stored (s.pc.toNat + 1)) = false ∧
      s.word s.pc = some w ∧ fetch s = .next w) := by
  unfold fetch
  cases hh : s.halted
  · cases ho : isOdd s.pc
    · cases hs : (AddrSet.has s.stored s.pc.toNat || AddrSet.has s.stored (s.pc.toNat + 1))
      · cases hw : s.word s.pc
        · exact .inr (.inr (.inr (.inl ⟨rfl, rfl, rfl, rfl, by simp⟩)))
        · next w => exact .inr (.inr (.inr (.inr ⟨w, rfl, rfl, rfl, rfl, by simp⟩)))
      · exact .inr (.inr (.inl ⟨rfl, rfl, rfl, by simp⟩))
    · exact .inr (.inl ⟨rfl, rfl, by simp⟩)
  · exact .inl ⟨rfl, by simp⟩

theorem fetch_eq_next {s : State} {w : Word} :
    fetch s = .next w ↔ s.halted = false ∧ isOdd s.pc = false ∧
      (AddrSet.has s.stored s.pc.toNat || AddrSet.has s.stored (s.pc.toNat + 1)) = false ∧ s.word s.pc = some w := by
  rcases fetch_cases s with ⟨h, e⟩ | ⟨h, h1, e⟩ | ⟨h, h1, h2, e⟩ | ⟨h, h1, h2, h3, e⟩ | ⟨u, h, h1, h2, h3, e⟩ <;>
    simp [*]

/-- Everything a step that answers a next state did: it fetched a word and executed it. -/
theorem step_eq_next {s t : State} :
    step s = .next t ↔ ∃ w, fetch s = .next w ∧ exec (decodeWord w) s = .next t := andThen_eq_next

/-- A word laid down where the next step fetches is what it fetches. -/
theorem fetch_placeForFetch (s : State) (w : Word) : fetch (s.placeForFetch w) = .next w := by
  rw [fetch_eq_next]
  refine ⟨rfl, by simp, by simp, ?_⟩
  simp [State.word]

section Exec
variable (s : State) (rd rs rt : Reg) (i5 : BitVec 5) (i8 : BitVec 8) (d : BitVec 11)

/-- Everything ST can do. -/
theorem execSt_eq : execSt rd rs i5 s =
    if isOdd (effectiveAddress s rs i5) then .fault (.misalignedData (effectiveAddress s rs i5))
    else .next ((s.storeWord (effectiveAddress s rs i5) (s.reg rd)).setPc s.nextPc) := by
  unfold execSt memWrite; split <;> rfl

/-- Everything STU can do. -/
theorem execStu_eq : execStu rd rs i5 s =
    if isOdd (effectiveAddress s rs i5) then .fault (.misalignedData (effectiveAddress s rs i5))
    else .next (((s.storeWord (effectiveAddress s rs i5) (s.reg rd)).setReg rs
      (effectiveAddress s rs i5)).setPc s.nextPc) := by
  unfold execStu memWrite; split <;> rfl

/-- Everything LD can do. -/
theorem execLd_cases :
    (isOdd (effectiveAddress s rs i5) = true ∧
      execLd rd rs i5 s = .fault (.misalignedData (effectiveAddress s rs i5))) ∨
    (isOdd (effectiveAddress s rs i5) = false ∧ s.word (effectiveAddress s rs i5) = none ∧
      execLd rd rs i5 s = .fault (.uninitMemory (effectiveAddress s rs i5))) ∨
    (∃ v, isOdd (effectiveAddress s rs i5) = false ∧ s.word (effectiveAddress s rs i5) = some v ∧
      execLd rd rs i5 s = .next ((s.setReg rd v).setPc s.nextPc)) := by
  unfold execLd
  rcases memRead_cases s (effectiveAddress s rs i5) with ⟨h, e⟩ | ⟨h, hw, e⟩ | ⟨v, h, hw, e⟩
  · exact .inl ⟨h, by rw [e]; rfl⟩
  · exact .inr (.inl ⟨h, hw, by rw [e]; rfl⟩)
  · exact .inr (.inr ⟨v, h, hw, by rw [e]; rfl⟩)

/-- Everything SIIC can do. -/
theorem execSiic_eq : execSiic s =
    if s.config.excSupport then .next (takeIllegalOp s) else .refused (.siicUnsupported s.pc) := rfl

/-- Everything RTI can do. -/
theorem execRti_eq : execRti s =
    if s.config.excSupport then .next (returnFromException s) else .next (s.setPc s.nextPc) := rfl

/-- Everything HALT can do. -/
theorem execHalt_eq : execHalt s = .next (stopMachine s) := rfl

end Exec

/-- What an instruction that answers a next state did, instruction by instruction: the new state as registers
written, then the pc (R24, R27). -/
theorem exec_next_cases {i : Instr} {s t : State} (h : exec i s = .next t) :
    (∃ rd v, writtenRegs i = [rd] ∧ ∃ p, t = (s.setReg rd v).setPc p) ∨
    (writtenRegs i = [] ∧ ∃ p, t = s.setPc p) ∨
    (∃ rd rs i5, i = .st rd rs i5 ∧ isOdd (effectiveAddress s rs i5) = false ∧
      t = (s.storeWord (effectiveAddress s rs i5) (s.reg rd)).setPc s.nextPc) ∨
    (∃ rd rs i5, i = .stu rd rs i5 ∧ isOdd (effectiveAddress s rs i5) = false ∧
      t = ((s.storeWord (effectiveAddress s rs i5) (s.reg rd)).setReg rs
        (effectiveAddress s rs i5)).setPc s.nextPc) ∨
    (i = .siic ∧ s.config.excSupport = true ∧ t = takeIllegalOp s) ∨
    (i = .halt ∧ t = stopMachine s) := by
  cases i with
  | halt => cases h; exact .inr (.inr (.inr (.inr (.inr ⟨rfl, rfl⟩))))
  | siic =>
    simp only [exec, execSiic] at h
    split at h
    · next hc => cases h; exact .inr (.inr (.inr (.inr (.inl ⟨rfl, hc, rfl⟩))))
    · cases h
  | rti =>
    simp only [exec, execRti] at h
    split at h <;> cases h <;> exact .inr (.inl ⟨rfl, _, rfl⟩)
  | st rd rs i5 =>
    simp only [exec, execSt_eq] at h
    split at h
    · cases h
    · next hc => cases h; exact .inr (.inr (.inl ⟨rd, rs, i5, rfl, by simpa using hc, rfl⟩))
  | stu rd rs i5 =>
    simp only [exec, execStu_eq] at h
    split at h
    · cases h
    · next hc => cases h; exact .inr (.inr (.inr (.inl ⟨rd, rs, i5, rfl, by simpa using hc, rfl⟩)))
  | ld rd rs i5 =>
    simp only [exec] at h
    rcases execLd_cases s rd rs i5 with ⟨-, e⟩ | ⟨-, -, e⟩ | ⟨v, -, -, e⟩ <;> rw [e] at h <;> cases h
    exact .inl ⟨rd, v, rfl, _, rfl⟩
  | nop => cases h; exact .inr (.inl ⟨rfl, _, rfl⟩)
  | j d => cases h; exact .inr (.inl ⟨rfl, _, rfl⟩)
  | jr rs i => cases h; exact .inr (.inl ⟨rfl, _, rfl⟩)
  | beqz rs i => cases h; exact .inr (.inl ⟨rfl, _, rfl⟩)
  | bnez rs i => cases h; exact .inr (.inl ⟨rfl, _, rfl⟩)
  | bltz rs i => cases h; exact .inr (.inl ⟨rfl, _, rfl⟩)
  | ret => cases h; exact .inr (.inl ⟨rfl, _, rfl⟩)
  | jal d => cases h; exact .inl ⟨_, _, rfl, _, rfl⟩
  | jalr rs i => cases h; exact .inl ⟨_, _, rfl, _, rfl⟩
  | lbi rs i => cases h; exact .inl ⟨_, _, rfl, _, rfl⟩
  | slbi rs i => cases h; exact .inl ⟨_, _, rfl, _, rfl⟩
  | addi rd rs i => cases h; exact .inl ⟨_, _, rfl, _, rfl⟩
  | subi rd rs i => cases h; exact .inl ⟨_, _, rfl, _, rfl⟩
  | ori rd rs i => cases h; exact .inl ⟨_, _, rfl, _, rfl⟩
  | andi rd rs i => cases h; exact .inl ⟨_, _, rfl, _, rfl⟩
  | roli rd rs i => cases h; exact .inl ⟨_, _, rfl, _, rfl⟩
  | slli rd rs i => cases h; exact .inl ⟨_, _, rfl, _, rfl⟩
  | rori rd rs i => cases h; exact .inl ⟨_, _, rfl, _, rfl⟩
  | srai rd rs i => cases h; exact .inl ⟨_, _, rfl, _, rfl⟩
  | btr rd rs => cases h; exact .inl ⟨_, _, rfl, _, rfl⟩
  | rol rd rs rt => cases h; exact .inl ⟨_, _, rfl, _, rfl⟩
  | sll rd rs rt => cases h; exact .inl ⟨_, _, rfl, _, rfl⟩
  | ror rd rs rt => cases h; exact .inl ⟨_, _, rfl, _, rfl⟩
  | sra rd rs rt => cases h; exact .inl ⟨_, _, rfl, _, rfl⟩
  | add rd rs rt => cases h; exact .inl ⟨_, _, rfl, _, rfl⟩
  | sub rd rs rt => cases h; exact .inl ⟨_, _, rfl, _, rfl⟩
  | or rd rs rt => cases h; exact .inl ⟨_, _, rfl, _, rfl⟩
  | and rd rs rt => cases h; exact .inl ⟨_, _, rfl, _, rfl⟩
  | seq rd rs rt => cases h; exact .inl ⟨_, _, rfl, _, rfl⟩
  | slt rd rs rt => cases h; exact .inl ⟨_, _, rfl, _, rfl⟩
  | sle rd rs rt => cases h; exact .inl ⟨_, _, rfl, _, rfl⟩
  | sco rd rs rt => cases h; exact .inl ⟨_, _, rfl, _, rfl⟩

end Sys2Proof.Machine
end

