-- ==== Sys2Proof/Laws/Operands.lean ====
section
/-! SUPPORT. The operand forms in the spec's exact-integer terms, parities, words by their bytes, and the frames of
the two shared ways to end an instruction. -/

namespace Sys2Proof.Machine

/-! ## Exact integers brought back by `trunc16` (R5) -/

theorem nextPc_eq (s : State) : s.nextPc = trunc16 (s.pc.toNat + 2) := by
  simp only [State.nextPc, trunc16]
  apply BitVec.eq_of_toNat_eq
  simp [BitVec.toNat_ofInt]
  omega

/-- A 16-bit sum is the exact sum brought back. -/
theorem add_eq_trunc16 {a b : Word} {z : Int} (h : b = BitVec.ofInt 16 z) : a + b = trunc16 (a.toNat + z) := by
  subst h
  rw [trunc16, BitVec.ofInt_add]
  congr 1
  simp

theorem effectiveAddress_eq (s : State) (rs : Reg) (i : BitVec 5) :
    effectiveAddress s rs i = trunc16 ((s.reg rs).toNat + i.toInt) := add_eq_trunc16 rfl

theorem registerTarget_eq (s : State) (rs : Reg) (i : BitVec 8) :
    registerTarget s rs i = trunc16 ((s.reg rs).toNat + i.toInt) := add_eq_trunc16 rfl

theorem nextPc_add_eq (s : State) (w : Word) (z : Int) (h : w = BitVec.ofInt 16 z) :
    s.nextPc + w = trunc16 (s.pc.toNat + 2 + z) := by
  rw [nextPc_eq, trunc16, trunc16, h, ← BitVec.ofInt_add]

theorem branchTarget_eq (s : State) (i : BitVec 8) :
    branchTarget s i = trunc16 (s.pc.toNat + 2 + i.toInt) := nextPc_add_eq s _ _ rfl

theorem displacementTarget_eq (s : State) (d : BitVec 11) :
    displacementTarget s d = trunc16 (s.pc.toNat + 2 + d.toInt) := nextPc_add_eq s _ _ rfl

theorem immAmount_eq (i : BitVec 5) : immAmount i = i.toNat % 16 := by simp [immAmount]

theorem regAmount_eq (v : Word) : regAmount v = v.toNat % 16 := by simp [regAmount]

theorem toNat_byte_append (a b : Byte) : (a ++ b).toNat = a.toNat * 256 + b.toNat := by
  rw [BitVec.toNat_append, ← Nat.shiftLeft_add_eq_or_of_lt b.isLt, Nat.shiftLeft_eq]

/-! ## Parity -/

theorem isOdd_iff (a : Word) : isOdd a = true ↔ a.toNat % 2 = 1 := by rw [isOdd_eq]; simp

theorem isEven_iff (a : Word) : isOdd a = false ↔ a.toNat % 2 = 0 := by rw [isOdd_eq]; simp

@[simp] theorem isOdd_add (a b : Word) : isOdd (a + b) = (isOdd a ^^ isOdd b) := by
  rw [Bool.eq_iff_iff, isOdd_iff, BitVec.toNat_add]
  have ha := isOdd_iff a
  have hb := isOdd_iff b
  cases h1 : isOdd a <;> cases h2 : isOdd b <;> simp [h1, h2] at ha hb ⊢ <;> omega

@[simp] theorem isOdd_nextPc (s : State) : isOdd s.nextPc = isOdd s.pc := by
  rw [State.nextPc, isOdd_add, show isOdd 2#16 = false by decide, Bool.xor_false]

/-! ## A word by its bytes -/

theorem word_eq_none {s : State} {a : Word}
    (h : Memory.get s.mem a.toNat = none ∨ Memory.get s.mem (a.toNat + 1) = none) : s.word a = none := by
  have hw := getWord_isSome s.config.byteOrder s.mem a
  rcases h with h | h <;> simpa [h, State.word] using hw

theorem word_eq_some {s : State} {a : Word} {lo hi : Byte} (h0 : Memory.get s.mem a.toNat = some lo)
    (h1 : Memory.get s.mem (a.toNat + 1) = some hi) : s.word a = some (wordOfBytes s.config.byteOrder lo hi) := by
  simp [State.word, Memory.getWord, h0, h1]

/-! ## Forms that answer -/

theorem memWrite_even {s : State} {a v : Word} (h : isOdd a = false) : memWrite s a v = .next (s.storeWord a v) := by
  simp [memWrite, h]

theorem execSt_even {s : State} {rd rs : Reg} {i : BitVec 5} (h : isOdd (effectiveAddress s rs i) = false) :
    execSt rd rs i s = .next ((s.storeWord (effectiveAddress s rs i) (s.reg rd)).setPc s.nextPc) := by
  simp [execSt_eq, h]

theorem execStu_even {s : State} {rd rs : Reg} {i : BitVec 5} (h : isOdd (effectiveAddress s rs i) = false) :
    execStu rd rs i s = .next (((s.storeWord (effectiveAddress s rs i) (s.reg rd)).setReg rs
      (effectiveAddress s rs i)).setPc s.nextPc) := by
  simp [execStu_eq, h]

theorem execLd_some {s : State} {rd rs : Reg} {i : BitVec 5} {v : Word}
    (h : isOdd (effectiveAddress s rs i) = false) (hw : s.word (effectiveAddress s rs i) = some v) :
    execLd rd rs i s = .next ((s.setReg rd v).setPc s.nextPc) := by
  simp [execLd, memRead, h, hw, writeBack_eq]

/-! ## Frames -/

theorem frame_setReg_setPc (s : State) (rd : Reg) (v p : Word) : Frame [rd] s ((s.setReg rd v).setPc p) := by
  refine ⟨fun r hr => ?_, ⟨fun _ => rfl, rfl⟩, rfl, rfl, rfl⟩
  simp only [List.mem_singleton] at hr
  simpa using reg_setReg_ne hr

theorem frame_setPc (s : State) (p : Word) : Frame [] s (s.setPc p) :=
  ⟨fun _ _ => rfl, ⟨fun _ => rfl, rfl⟩, rfl, rfl, rfl⟩

end Sys2Proof.Machine
end

