-- ==== Sys2Proof/Laws/PerInstr.lean ====
section
/-! SUPPORT. Per-instruction families: `OpcodeField`, the opcode bits of an encoded instruction are its row's
(30_encoding.md R61, R68). -/

namespace Sys2Proof.Laws.OpcodeField

/-- Bits 15:11 of the encoding are those of the row that bears the instruction's mnemonic. -/
def Statement (i : Instr) : Prop :=
  ∃ row ∈ opcodeTable, row.mnemonic = i.mnemonic ∧ opcodeField (encode i) = opcodeField row.value

theorem halt : Statement .halt :=
  ⟨⟨"HALT", 0x0000#16, 0xF800#16, 0x07FF#16⟩, by decide, rfl, opcode_encodeBare ..⟩
theorem nop : Statement .nop :=
  ⟨⟨"NOP", 0x0800#16, 0xF800#16, 0x07FF#16⟩, by decide, rfl, opcode_encodeBare ..⟩
theorem siic : Statement .siic :=
  ⟨⟨"SIIC", 0x1000#16, 0xF800#16, 0x07FF#16⟩, by decide, rfl, opcode_encodeBare ..⟩
theorem rti : Statement .rti :=
  ⟨⟨"RTI", 0x1800#16, 0xF800#16, 0x07FF#16⟩, by decide, rfl, opcode_encodeBare ..⟩
theorem j (disp : BitVec 11) : Statement (.j disp) :=
  ⟨⟨"J", 0x2000#16, 0xF800#16, 0x0000#16⟩, by decide, rfl, opcode_encodeJ ..⟩
theorem jr (rs : Reg) (imm : BitVec 8) : Statement (.jr rs imm) :=
  ⟨⟨"JR", 0x2800#16, 0xF800#16, 0x0000#16⟩, by decide, rfl, opcode_encodeI2 ..⟩
theorem jal (disp : BitVec 11) : Statement (.jal disp) :=
  ⟨⟨"JAL", 0x3000#16, 0xF800#16, 0x0000#16⟩, by decide, rfl, opcode_encodeJ ..⟩
theorem jalr (rs : Reg) (imm : BitVec 8) : Statement (.jalr rs imm) :=
  ⟨⟨"JALR", 0x3800#16, 0xF800#16, 0x0000#16⟩, by decide, rfl, opcode_encodeI2 ..⟩
theorem addi (rd rs : Reg) (imm : BitVec 5) : Statement (.addi rd rs imm) :=
  ⟨⟨"ADDI", 0x4000#16, 0xF800#16, 0x0000#16⟩, by decide, rfl, opcode_encodeI1 ..⟩
theorem subi (rd rs : Reg) (imm : BitVec 5) : Statement (.subi rd rs imm) :=
  ⟨⟨"SUBI", 0x4800#16, 0xF800#16, 0x0000#16⟩, by decide, rfl, opcode_encodeI1 ..⟩
theorem ori (rd rs : Reg) (imm : BitVec 5) : Statement (.ori rd rs imm) :=
  ⟨⟨"ORI", 0x5000#16, 0xF800#16, 0x0000#16⟩, by decide, rfl, opcode_encodeI1 ..⟩
theorem andi (rd rs : Reg) (imm : BitVec 5) : Statement (.andi rd rs imm) :=
  ⟨⟨"ANDI", 0x5800#16, 0xF800#16, 0x0000#16⟩, by decide, rfl, opcode_encodeI1 ..⟩
theorem beqz (rs : Reg) (imm : BitVec 8) : Statement (.beqz rs imm) :=
  ⟨⟨"BEQZ", 0x6000#16, 0xF800#16, 0x0000#16⟩, by decide, rfl, opcode_encodeI2 ..⟩
theorem bnez (rs : Reg) (imm : BitVec 8) : Statement (.bnez rs imm) :=
  ⟨⟨"BNEZ", 0x6800#16, 0xF800#16, 0x0000#16⟩, by decide, rfl, opcode_encodeI2 ..⟩
theorem ret : Statement .ret :=
  ⟨⟨"RET", 0x7000#16, 0xF800#16, 0x07FF#16⟩, by decide, rfl, opcode_encodeBare ..⟩
theorem bltz (rs : Reg) (imm : BitVec 8) : Statement (.bltz rs imm) :=
  ⟨⟨"BLTZ", 0x7800#16, 0xF800#16, 0x0000#16⟩, by decide, rfl, opcode_encodeI2 ..⟩
theorem st (rd rs : Reg) (imm : BitVec 5) : Statement (.st rd rs imm) :=
  ⟨⟨"ST", 0x8000#16, 0xF800#16, 0x0000#16⟩, by decide, rfl, opcode_encodeI1 ..⟩
theorem ld (rd rs : Reg) (imm : BitVec 5) : Statement (.ld rd rs imm) :=
  ⟨⟨"LD", 0x8800#16, 0xF800#16, 0x0000#16⟩, by decide, rfl, opcode_encodeI1 ..⟩
theorem slbi (rs : Reg) (imm : BitVec 8) : Statement (.slbi rs imm) :=
  ⟨⟨"SLBI", 0x9000#16, 0xF800#16, 0x0000#16⟩, by decide, rfl, opcode_encodeI2 ..⟩
theorem stu (rd rs : Reg) (imm : BitVec 5) : Statement (.stu rd rs imm) :=
  ⟨⟨"STU", 0x9800#16, 0xF800#16, 0x0000#16⟩, by decide, rfl, opcode_encodeI1 ..⟩
theorem roli (rd rs : Reg) (imm : BitVec 5) : Statement (.roli rd rs imm) :=
  ⟨⟨"ROLI", 0xA000#16, 0xF800#16, 0x0000#16⟩, by decide, rfl, opcode_encodeI1 ..⟩
theorem slli (rd rs : Reg) (imm : BitVec 5) : Statement (.slli rd rs imm) :=
  ⟨⟨"SLLI", 0xA800#16, 0xF800#16, 0x0000#16⟩, by decide, rfl, opcode_encodeI1 ..⟩
theorem rori (rd rs : Reg) (imm : BitVec 5) : Statement (.rori rd rs imm) :=
  ⟨⟨"RORI", 0xB000#16, 0xF800#16, 0x0000#16⟩, by decide, rfl, opcode_encodeI1 ..⟩
theorem srai (rd rs : Reg) (imm : BitVec 5) : Statement (.srai rd rs imm) :=
  ⟨⟨"SRAI", 0xB800#16, 0xF800#16, 0x0000#16⟩, by decide, rfl, opcode_encodeI1 ..⟩
theorem lbi (rs : Reg) (imm : BitVec 8) : Statement (.lbi rs imm) :=
  ⟨⟨"LBI", 0xC000#16, 0xF800#16, 0x0000#16⟩, by decide, rfl, opcode_encodeI2 ..⟩
theorem btr (rd rs : Reg) : Statement (.btr rd rs) :=
  ⟨⟨"BTR", 0xC800#16, 0xF800#16, 0x00E3#16⟩, by decide, rfl, opcode_encodeR ..⟩
theorem rol (rd rs rt : Reg) : Statement (.rol rd rs rt) :=
  ⟨⟨"ROL", 0xD000#16, 0xF803#16, 0x0000#16⟩, by decide, rfl, opcode_encodeR ..⟩
theorem sll (rd rs rt : Reg) : Statement (.sll rd rs rt) :=
  ⟨⟨"SLL", 0xD001#16, 0xF803#16, 0x0000#16⟩, by decide, rfl, opcode_encodeR ..⟩
theorem ror (rd rs rt : Reg) : Statement (.ror rd rs rt) :=
  ⟨⟨"ROR", 0xD002#16, 0xF803#16, 0x0000#16⟩, by decide, rfl, opcode_encodeR ..⟩
theorem sra (rd rs rt : Reg) : Statement (.sra rd rs rt) :=
  ⟨⟨"SRA", 0xD003#16, 0xF803#16, 0x0000#16⟩, by decide, rfl, opcode_encodeR ..⟩
theorem add (rd rs rt : Reg) : Statement (.add rd rs rt) :=
  ⟨⟨"ADD", 0xD800#16, 0xF803#16, 0x0000#16⟩, by decide, rfl, opcode_encodeR ..⟩
theorem sub (rd rs rt : Reg) : Statement (.sub rd rs rt) :=
  ⟨⟨"SUB", 0xD801#16, 0xF803#16, 0x0000#16⟩, by decide, rfl, opcode_encodeR ..⟩
theorem or (rd rs rt : Reg) : Statement (.or rd rs rt) :=
  ⟨⟨"OR", 0xD802#16, 0xF803#16, 0x0000#16⟩, by decide, rfl, opcode_encodeR ..⟩
theorem and (rd rs rt : Reg) : Statement (.and rd rs rt) :=
  ⟨⟨"AND", 0xD803#16, 0xF803#16, 0x0000#16⟩, by decide, rfl, opcode_encodeR ..⟩
theorem seq (rd rs rt : Reg) : Statement (.seq rd rs rt) :=
  ⟨⟨"SEQ", 0xE000#16, 0xF800#16, 0x0003#16⟩, by decide, rfl, opcode_encodeR ..⟩
theorem slt (rd rs rt : Reg) : Statement (.slt rd rs rt) :=
  ⟨⟨"SLT", 0xE800#16, 0xF800#16, 0x0003#16⟩, by decide, rfl, opcode_encodeR ..⟩
theorem sle (rd rs rt : Reg) : Statement (.sle rd rs rt) :=
  ⟨⟨"SLE", 0xF000#16, 0xF800#16, 0x0003#16⟩, by decide, rfl, opcode_encodeR ..⟩
theorem sco (rd rs rt : Reg) : Statement (.sco rd rs rt) :=
  ⟨⟨"SCO", 0xF800#16, 0xF800#16, 0x0003#16⟩, by decide, rfl, opcode_encodeR ..⟩

end Sys2Proof.Laws.OpcodeField
end

