-- ==== Sys2Proof/Laws/Runs.lean ====
section
/-! SUPPORT. Runs by their first step, and instructions executed one after another. -/

namespace Sys2Proof.Machine

theorem run_zero (s : State) : run 0 s = .next s := rfl

/-- A run of `k + 1` steps that is not stopped is one step and a run of `k` steps. -/
theorem run_succ_eq_next {k : Nat} {s t : State} :
    run (k + 1) s = .next t ↔ ∃ m, step s = .next m ∧ run k m = .next t := andThen_eq_next

/-- The host's run of any machine, by the outcome of its first step. -/
theorem hostRun_next {M : Host.Core} {k : Nat} {s t : M.State} (h : M.step s = .next t) :
    M.run (k + 1) s = M.run k t := by rw [Host.Core.run.eq_def]; simp only [h]

theorem hostRun_fault {M : Host.Core} {k : Nat} {s : M.State} {r : M.Fault} (h : M.step s = .fault r) :
    M.run (k + 1) s = .fault r := by rw [Host.Core.run.eq_def]; simp only [h]

theorem hostRun_refused {M : Host.Core} {k : Nat} {s : M.State} {r : M.Refusal} (h : M.step s = .refused r) :
    M.run (k + 1) s = .refused r := by rw [Host.Core.run.eq_def]; simp only [h]

/-- The host's run of this machine is `run`. -/
theorem core_run_eq (k : Nat) : ∀ s : State, Host.Core.run Sys2Proof.core k s = run k s := by
  induction k with
  | zero => intro s; rfl
  | succ k ih =>
    intro s
    change Host.Core.run Sys2Proof.core (k + 1) s = andThen (step s) (run k)
    cases hs : step s with
    | next t => exact (hostRun_next (M := Sys2Proof.core) hs).trans (ih t)
    | fault r => exact hostRun_fault (M := Sys2Proof.core) hs
    | refused r => exact hostRun_refused (M := Sys2Proof.core) hs

theorem execAll_nil (s : State) : execAll [] s = .next s := rfl

theorem execAll_cons_eq_next {i : Instr} {rest : List Instr} {s t : State} :
    execAll (i :: rest) s = .next t ↔ ∃ m, exec i s = .next m ∧ execAll rest m = .next t := andThen_eq_next

end Sys2Proof.Machine
end

