-- ==== Sys2Proof/Tests/Slice0.lean ====
section
/-! SUPPORT. Tests. Every expected value is the spec's: 95_test_vectors.md (section given at each group), or the rule
named at the test. The last group meets the hypotheses of the statements of Obligations.lean. -/

namespace Sys2Proof.Tests

open Sys2Proof.Machine

/-! ## WellFormed (R1, R192) -/

/-- A machine without the optional part. -/
def basePart : Config := { byteOrder := .big, excSupport := false }

theorem test_wellFormed_refuses_siic_in_base_part : WellFormed basePart .siic = false := by decide
theorem test_wellFormed_refuses_rti_in_base_part : WellFormed basePart .rti = false := by decide
theorem test_wellFormed_accepts_both_by_default :
    WellFormed Config.default .siic = true ∧ WellFormed Config.default .rti = true := by decide
theorem test_wellFormed_accepts_ret_in_base_part : WellFormed basePart .ret = true := by decide
theorem test_base_part_is_36_of_38_rows :
    (opcodeTable.filter (fun r => (decodeWord r.value).inBasePart)).length = 36 ∧ opcodeTable.length = 38 := by decide

/-! ## Decoding: 95_test_vectors.md 2.1 -/

theorem test_decode_halt : decodeWord 0b0000000000000000#16 = .halt := by decide
theorem test_decode_nop : decodeWord 0b0000100000000000#16 = .nop := by decide
theorem test_decode_siic : decodeWord 0b0001001100000000#16 = .siic := by decide
theorem test_decode_rti : decodeWord 0b0001100000000000#16 = .rti := by decide
theorem test_decode_j : decodeWord 0b0010010000000000#16 = .j 0x400#11 := by decide
theorem test_decode_jr : decodeWord 0b0010100100000100#16 = .jr .r1 0x04#8 := by decide
theorem test_decode_jal : decodeWord 0b0011011100000000#16 = .jal 0x700#11 := by decide
theorem test_decode_jalr : decodeWord 0b0011111100000010#16 = .jalr .r7 0x02#8 := by decide
theorem test_decode_addi : decodeWord 0b0100001000111111#16 = .addi .r1 .r2 0x1F#5 := by decide
theorem test_decode_subi : decodeWord 0b0100101000100101#16 = .subi .r1 .r2 0x05#5 := by decide
theorem test_decode_ori : decodeWord 0b0101001000111111#16 = .ori .r1 .r2 0x1F#5 := by decide
theorem test_decode_andi : decodeWord 0b0101101000110101#16 = .andi .r1 .r2 0x15#5 := by decide
theorem test_decode_beqz : decodeWord 0b0110000100000110#16 = .beqz .r1 0x06#8 := by decide
theorem test_decode_bnez : decodeWord 0b0110100111111010#16 = .bnez .r1 0xFA#8 := by decide
theorem test_decode_ret : decodeWord 0b0111000000000000#16 = .ret := by decide
theorem test_decode_bltz : decodeWord 0b0111100110000000#16 = .bltz .r1 0x80#8 := by decide
theorem test_decode_st : decodeWord 0b1000001000100100#16 = .st .r1 .r2 0x04#5 := by decide
theorem test_decode_ld : decodeWord 0b1000101000110000#16 = .ld .r1 .r2 0x10#5 := by decide
theorem test_decode_slbi : decodeWord 0b1001000100110100#16 = .slbi .r1 0x34#8 := by decide
theorem test_decode_stu : decodeWord 0b1001101000111110#16 = .stu .r1 .r2 0x1E#5 := by decide
theorem test_decode_roli : decodeWord 0b1010001000100100#16 = .roli .r1 .r2 0x04#5 := by decide
theorem test_decode_slli : decodeWord 0b1010101000110000#16 = .slli .r1 .r2 0x10#5 := by decide
theorem test_decode_rori : decodeWord 0b1011001000111111#16 = .rori .r1 .r2 0x1F#5 := by decide
theorem test_decode_srai : decodeWord 0b1011101000100100#16 = .srai .r1 .r2 0x04#5 := by decide
theorem test_decode_lbi : decodeWord 0b1100000111111111#16 = .lbi .r1 0xFF#8 := by decide
theorem test_decode_btr : decodeWord 0b1100101000000100#16 = .btr .r1 .r2 := by decide
theorem test_decode_rol : decodeWord 0b1101000101001100#16 = .rol .r3 .r1 .r2 := by decide
theorem test_decode_sll : decodeWord 0b1101000101001101#16 = .sll .r3 .r1 .r2 := by decide
theorem test_decode_ror : decodeWord 0b1101000101001110#16 = .ror .r3 .r1 .r2 := by decide
theorem test_decode_sra : decodeWord 0b1101000101001111#16 = .sra .r3 .r1 .r2 := by decide
theorem test_decode_add : decodeWord 0b1101100101001100#16 = .add .r3 .r1 .r2 := by decide
theorem test_decode_sub : decodeWord 0b1101100101001101#16 = .sub .r3 .r1 .r2 := by decide
theorem test_decode_or : decodeWord 0b1101100101001110#16 = .or .r3 .r1 .r2 := by decide
theorem test_decode_and : decodeWord 0b1101100101001111#16 = .and .r3 .r1 .r2 := by decide
theorem test_decode_seq : decodeWord 0b1110000101001100#16 = .seq .r3 .r1 .r2 := by decide
theorem test_decode_slt : decodeWord 0b1110100101001100#16 = .slt .r3 .r1 .r2 := by decide
theorem test_decode_sle : decodeWord 0b1111000101001100#16 = .sle .r3 .r1 .r2 := by decide
theorem test_decode_sco : decodeWord 0b1111100101001100#16 = .sco .r3 .r1 .r2 := by decide

theorem test_dont_care_words : decodeWord 0x07FF#16 = .halt ∧ decodeWord 0x0FFF#16 = .nop ∧
    decodeWord 0x17FF#16 = .siic ∧ decodeWord 0x1FFF#16 = .rti ∧ decodeWord 0x77FF#16 = .ret ∧
    decodeWord 0xCAE7#16 = .btr .r1 .r2 ∧ decodeWord 0xE14F#16 = .seq .r3 .r1 .r2 ∧
    decodeWord 0xFFFF#16 = .sco .r7 .r7 .r7 := by decide
theorem test_decode_truncated : decode .big [0x42#8] = .error (.truncated 1) := by decide
theorem test_decode_bytes_little :
    decode .little [0x3F#8, 0x42#8, 0x99#8] = .ok (.addi .r1 .r2 0x1F#5, [0x99#8]) := by decide
theorem test_encode_sub : encode (.sub .r3 .r1 .r2) = 0xD94D#16 := by decide
theorem test_encode_siic_r3 : encodeSiic .r3 = 0x1300#16 := by decide
theorem test_assembly_addi : Instr.assembly (.addi .r1 .r2 0x1F#5) = "ADDI R1, R2, -1" := by decide
theorem test_decodeTableWord_j : decodeTableWord 16 0x2006 = some (.j 0x006#11) := by decide

/-! ## Meanings: 95_test_vectors.md 2.2 to 2.8. `pc` is 0100 unless the row says otherwise. -/

/-- A state at `pc` with some registers set. -/
def at_ (pc : Word) (regs : List (Reg × Word)) : State :=
  regs.foldl (fun s p => s.setReg p.1 p.2) (State.reset.setPc pc)

/-- A word of memory put in place, not stored by the run. -/
def withWord (a v : Word) (s : State) : State := { s with mem := Memory.setWord s.config.byteOrder s.mem a v }

/-- The register and the pc an instruction leaves, if it answers. -/
def after (i : Instr) (r : Reg) (s : State) : Option (Word × Word) := (nextOf (exec i s)).map (fun t => (t.reg r, t.pc))

theorem test_addi_overflow_wraps :
    after (.addi .r1 .r2 0x0F#5) .r1 (at_ 0x0100#16 [(.r2, 0x7FFF#16)]) = some (0x800E#16, 0x0102#16) := by decide
theorem test_addi_wraps_to_zero_in_place :
    after (.addi .r3 .r3 0x01#5) .r3 (at_ 0x0100#16 [(.r3, 0xFFFF#16)]) = some (0x0000#16, 0x0102#16) := by decide
theorem test_subi_is_imm_minus_rs :
    after (.subi .r1 .r2 0x05#5) .r1 (at_ 0x0100#16 [(.r2, 0x0003#16)]) = some (0x0002#16, 0x0102#16) := by decide
theorem test_subi_sign_extends :
    after (.subi .r1 .r2 0x1F#5) .r1 (at_ 0x0100#16 [(.r2, 0x8000#16)]) = some (0x7FFF#16, 0x0102#16) := by decide
theorem test_ori_zero_extends :
    after (.ori .r1 .r2 0x1F#5) .r1 (at_ 0x0100#16 [(.r2, 0xFF00#16)]) = some (0xFF1F#16, 0x0102#16) := by decide
theorem test_andi_clears_high_bits :
    after (.andi .r1 .r2 0x1F#5) .r1 (at_ 0x0100#16 [(.r2, 0xFFFF#16)]) = some (0x001F#16, 0x0102#16) := by decide
theorem test_roli_by_20_acts_as_4 :
    after (.roli .r1 .r2 0x14#5) .r1 (at_ 0x0100#16 [(.r2, 0x1234#16)]) = some (0x2341#16, 0x0102#16) := by decide
theorem test_roli_by_15 :
    after (.roli .r1 .r2 0x0F#5) .r1 (at_ 0x0100#16 [(.r2, 0x8001#16)]) = some (0xC000#16, 0x0102#16) := by decide
theorem test_slli_by_16_acts_as_0 :
    after (.slli .r1 .r2 0x10#5) .r1 (at_ 0x0100#16 [(.r2, 0x1234#16)]) = some (0x1234#16, 0x0102#16) := by decide
theorem test_slli_loses_bits :
    after (.slli .r1 .r2 0x04#5) .r1 (at_ 0x0100#16 [(.r2, 0x1234#16)]) = some (0x2340#16, 0x0102#16) := by decide
theorem test_rori_by_31_acts_as_15 :
    after (.rori .r1 .r2 0x1F#5) .r1 (at_ 0x0100#16 [(.r2, 0x8000#16)]) = some (0x0001#16, 0x0102#16) := by decide
theorem test_rori_by_4 :
    after (.rori .r1 .r2 0x04#5) .r1 (at_ 0x0100#16 [(.r2, 0x1234#16)]) = some (0x4123#16, 0x0102#16) := by decide
theorem test_srai_copies_the_sign :
    after (.srai .r1 .r2 0x04#5) .r1 (at_ 0x0100#16 [(.r2, 0x8234#16)]) = some (0xF823#16, 0x0102#16) := by decide
theorem test_srai_of_minus_one :
    after (.srai .r1 .r2 0x01#5) .r1 (at_ 0x0100#16 [(.r2, 0xFFFF#16)]) = some (0xFFFF#16, 0x0102#16) := by decide
theorem test_btr :
    after (.btr .r1 .r2) .r1 (at_ 0x0100#16 [(.r2, 0x1234#16)]) = some (0x2C48#16, 0x0102#16) := by decide
theorem test_btr_in_place :
    after (.btr .r3 .r3) .r3 (at_ 0x0100#16 [(.r3, 0xF0A5#16)]) = some (0xA50F#16, 0x0102#16) := by decide
theorem test_add_all_one_register :
    after (.add .r1 .r1 .r1) .r1 (at_ 0x0100#16 [(.r1, 0x8000#16)]) = some (0x0000#16, 0x0102#16) := by decide
theorem test_sll_value_and_amount_from_one_register :
    after (.sll .r1 .r1 .r1) .r1 (at_ 0x0100#16 [(.r1, 0x0003#16)]) = some (0x0018#16, 0x0102#16) := by decide
theorem test_add_carry_lost :
    after (.add .r3 .r1 .r2) .r3 (at_ 0x0100#16 [(.r1, 0xFFFF#16), (.r2, 0x0001#16)]) = some (0x0000#16, 0x0102#16) := by decide
theorem test_sub_is_rt_minus_rs :
    after (.sub .r3 .r1 .r2) .r3 (at_ 0x0100#16 [(.r1, 0x0003#16), (.r2, 0x0005#16)]) = some (0x0002#16, 0x0102#16) := by decide
theorem test_sub_overflow_wraps :
    after (.sub .r3 .r1 .r2) .r3 (at_ 0x0100#16 [(.r1, 0x0001#16), (.r2, 0x8000#16)]) = some (0x7FFF#16, 0x0102#16) := by decide
theorem test_or :
    after (.or .r3 .r1 .r2) .r3 (at_ 0x0100#16 [(.r1, 0xF0F0#16), (.r2, 0x0FF0#16)]) = some (0xFFF0#16, 0x0102#16) := by decide
theorem test_and :
    after (.and .r3 .r1 .r2) .r3 (at_ 0x0100#16 [(.r1, 0xF0F0#16), (.r2, 0x0FF0#16)]) = some (0x00F0#16, 0x0102#16) := by decide
theorem test_rol_low_four_bits :
    after (.rol .r3 .r1 .r2) .r3 (at_ 0x0100#16 [(.r1, 0x1234#16), (.r2, 0xFFF4#16)]) = some (0x2341#16, 0x0102#16) := by decide
theorem test_sll_by_16_acts_as_0 :
    after (.sll .r3 .r1 .r2) .r3 (at_ 0x0100#16 [(.r1, 0x0001#16), (.r2, 0x0010#16)]) = some (0x0001#16, 0x0102#16) := by decide
theorem test_ror :
    after (.ror .r3 .r1 .r2) .r3 (at_ 0x0100#16 [(.r1, 0x1234#16), (.r2, 0x8008#16)]) = some (0x3412#16, 0x0102#16) := by decide
theorem test_sra :
    after (.sra .r3 .r1 .r2) .r3 (at_ 0x0100#16 [(.r1, 0x8000#16), (.r2, 0x000F#16)]) = some (0xFFFF#16, 0x0102#16) := by decide
theorem test_sra_amount_0 :
    after (.sra .r3 .r1 .r2) .r3 (at_ 0x0100#16 [(.r1, 0x8000#16), (.r2, 0x0020#16)]) = some (0x8000#16, 0x0102#16) := by decide
theorem test_seq_equal :
    after (.seq .r3 .r1 .r2) .r3 (at_ 0x0100#16 [(.r1, 0x1234#16), (.r2, 0x1234#16)]) = some (0x0001#16, 0x0102#16) := by decide
theorem test_seq_unequal :
    after (.seq .r3 .r1 .r2) .r3 (at_ 0x0100#16 [(.r1, 0x1234#16), (.r2, 0x1235#16)]) = some (0x0000#16, 0x0102#16) := by decide
theorem test_slt_where_the_difference_overflows :
    after (.slt .r3 .r1 .r2) .r3 (at_ 0x0100#16 [(.r1, 0x8000#16), (.r2, 0x7FFF#16)]) = some (0x0001#16, 0x0102#16) := by decide
theorem test_slt_strict :
    after (.slt .r3 .r1 .r2) .r3 (at_ 0x0100#16 [(.r1, 0x0005#16), (.r2, 0x0005#16)]) = some (0x0000#16, 0x0102#16) := by decide
theorem test_sle_equal :
    after (.sle .r3 .r1 .r2) .r3 (at_ 0x0100#16 [(.r1, 0xFFFF#16), (.r2, 0xFFFF#16)]) = some (0x0001#16, 0x0102#16) := by decide
theorem test_sle_signed :
    after (.sle .r3 .r1 .r2) .r3 (at_ 0x0100#16 [(.r1, 0x7FFF#16), (.r2, 0x8000#16)]) = some (0x0000#16, 0x0102#16) := by decide
theorem test_sco_signed_overflow_is_no_carry :
    after (.sco .r3 .r1 .r2) .r3 (at_ 0x0100#16 [(.r1, 0x7FFF#16), (.r2, 0x0001#16)]) = some (0x0000#16, 0x0102#16) := by decide
theorem test_sco_carry :
    after (.sco .r3 .r1 .r2) .r3 (at_ 0x0100#16 [(.r1, 0x8000#16), (.r2, 0x8000#16)]) = some (0x0001#16, 0x0102#16) := by decide
theorem test_lbi_sign_extends :
    after (.lbi .r1 0xAB#8) .r1 (at_ 0x0100#16 [(.r1, 0x1234#16)]) = some (0xFFAB#16, 0x0102#16) := by decide
theorem test_slbi_old_low_byte_becomes_high :
    after (.slbi .r1 0x34#8) .r1 (at_ 0x0100#16 [(.r1, 0xFF12#16)]) = some (0x1234#16, 0x0102#16) := by decide
theorem test_slbi_does_not_sign_extend :
    after (.slbi .r1 0xFF#8) .r1 (at_ 0x0100#16 [(.r1, 0x1234#16)]) = some (0x34FF#16, 0x0102#16) := by decide
theorem test_beqz_wraps_below_zero :
    after (.beqz .r1 0x80#8) .r1 (at_ 0x0010#16 [(.r1, 0x0000#16)]) = some (0x0000#16, 0xFF92#16) := by decide
theorem test_beqz_not_taken :
    after (.beqz .r1 0x06#8) .r1 (at_ 0x0100#16 [(.r1, 0x8000#16)]) = some (0x8000#16, 0x0102#16) := by decide
theorem test_bnez_odd_target :
    after (.bnez .r1 0x7F#8) .r1 (at_ 0x0100#16 [(.r1, 0x0001#16)]) = some (0x0001#16, 0x0181#16) := by decide
theorem test_bltz_backward :
    after (.bltz .r1 0x80#8) .r1 (at_ 0x0100#16 [(.r1, 0xFFFF#16)]) = some (0xFFFF#16, 0x0082#16) := by decide
theorem test_bltz_zero_is_not_negative :
    after (.bltz .r1 0x06#8) .r1 (at_ 0x0100#16 [(.r1, 0x0000#16)]) = some (0x0000#16, 0x0102#16) := by decide
theorem test_j_wraps :
    after (.j 0x002#11) .r7 (at_ 0xFFFE#16 []) = some (0x0000#16, 0x0002#16) := by decide
theorem test_j_backward :
    after (.j 0x400#11) .r7 (at_ 0x0010#16 []) = some (0x0000#16, 0xFC12#16) := by decide
theorem test_jal_link_wraps :
    after (.jal 0x000#11) .r7 (at_ 0xFFFE#16 [(.r7, 0x1111#16)]) = some (0x0000#16, 0x0000#16) := by decide
theorem test_jal :
    after (.jal 0x700#11) .r7 (at_ 0x0200#16 []) = some (0x0202#16, 0x0102#16) := by decide
theorem test_jr_wraps :
    after (.jr .r1 0xFE#8) .r1 (at_ 0x0100#16 [(.r1, 0x0000#16)]) = some (0x0000#16, 0xFFFE#16) := by decide
theorem test_jalr_uses_the_old_r7 :
    after (.jalr .r7 0x02#8) .r7 (at_ 0x0100#16 [(.r7, 0x0300#16)]) = some (0x0102#16, 0x0302#16) := by decide
theorem test_ret :
    after (.ret) .r7 (at_ 0x0100#16 [(.r7, 0x0103#16)]) = some (0x0103#16, 0x0103#16) := by decide
theorem test_st_big_endian :
    (nextOf (exec (.st .r1 .r2 0x04#5) (at_ 0x0100#16 [(.r1, 0xBEEF#16), (.r2, 0x0100#16)]))).map
      (fun t => (t.mem, t.stored)) = some ([(0x0104, 0xBE#8), (0x0105, 0xEF#8)], [0x0104, 0x0105]) := by decide
theorem test_st_wraps_below_zero :
    (nextOf (exec (.st .r1 .r2 0x1E#5) (at_ 0x0100#16 [(.r1, 0x1234#16), (.r2, 0x0000#16)]))).bind
      (fun t => t.word 0xFFFE#16) = some 0x1234#16 := by decide
theorem test_ld : after (.ld .r1 .r2 0x10#5) .r1 (withWord 0x0100#16 0xCAFE#16 (at_ 0x0200#16 [(.r2, 0x0110#16)])) =
    some (0xCAFE#16, 0x0202#16) := by decide
theorem test_ld_no_value :
    faultOf (exec (.ld .r1 .r2 0x00#5) (at_ 0x0100#16 [(.r2, 0x0200#16)])) = some (.uninitMemory 0x0200#16) := by decide
theorem test_stu_stores_the_old_value :
    (nextOf (exec (.stu .r2 .r2 0x06#5) (at_ 0x0100#16 [(.r2, 0x0100#16)]))).map
      (fun t => (t.word 0x0106#16, t.reg .r2)) = some (some 0x0100#16, 0x0106#16) := by decide
theorem test_stu_odd_address :
    faultOf (exec (.stu .r1 .r2 0x03#5) (at_ 0x0100#16 [(.r2, 0x0200#16)])) =
      some (.misalignedData 0x0203#16) := by decide
theorem test_halt : (nextOf (exec .halt (at_ 0xFFFE#16 []))).map (fun t => (t.halted, t.pc)) =
    some (true, 0x0000#16) := by decide
theorem test_nop : (nextOf (exec .nop (at_ 0x0100#16 []))).map (fun t => (t.halted, t.pc)) =
    some (false, 0x0102#16) := by decide
theorem test_siic : (nextOf (exec .siic (at_ 0xFFFE#16 []))).map (fun t => (t.epc, t.pc)) =
    some (0x0000#16, 0x0002#16) := by decide
theorem test_siic_refused : refusalOf (exec .siic { at_ 0x0100#16 [] with config := basePart }) =
    some (.siicUnsupported 0x0100#16) := by decide
theorem test_rti : (nextOf (exec .rti { at_ 0x0004#16 [] with epc := 0x0102#16 })).map (fun t => (t.epc, t.pc)) =
    some (0x0102#16, 0x0102#16) := by decide
theorem test_rti_is_a_nop_in_the_base_part :
    (nextOf (exec .rti { at_ 0x0100#16 [] with epc := 0x0300#16, config := basePart })).map
      (fun t => (t.epc, t.pc)) = some (0x0300#16, 0x0102#16) := by decide

/-! ## The step: 95_test_vectors.md 2.9 -/

theorem test_step_odd_pc : faultOf (step (at_ 0x0101#16 [])) = some (.misalignedFetch 0x0101#16) := by decide
theorem test_step_no_value : faultOf (step (at_ 0x0100#16 [])) = some (.uninitMemory 0x0100#16) := by decide
theorem test_step_stored : refusalOf (step { withWord 0x0100#16 0x0800#16 (at_ 0x0100#16 []) with stored := [0x0101] }) =
    some (.selfModifyingCode 0x0100#16) := by decide
theorem test_step_nop : (nextOf (step (withWord 0x0100#16 0x0800#16 (at_ 0x0100#16 [])))).map (fun t => t.pc) =
    some 0x0102#16 := by decide
theorem test_step_halted : faultOf (step { withWord 0x0100#16 0x0800#16 (at_ 0x0100#16 []) with halted := true }) =
    some .halted := by decide
theorem test_first_step_after_reset_runs_the_placed_word :
    (nextOf (step (State.reset.withFetchWord 16 0xC17F))).map (fun t => (t.reg .r1, t.pc)) =
      some (0x007F#16, 0x0002#16) := by decide

/-! ## Witnesses: a state and operands that meet the hypotheses of each statement that has any, clause by clause.
A statement of Obligations.lean named X has its witness here as witness_X. -/

theorem witness_DontCareBitsAreIgnored :
    (decodeWord 0xA224#16).mnemonic = "ROLI" ∧ (decodeWord 0xAA30#16).mnemonic = "SLLI" ∧
    (decodeWord 0xB23F#16).mnemonic = "RORI" ∧ (decodeWord 0xBA24#16).mnemonic = "SRAI" := by decide

/-- A NOP at the last word of memory, both its bytes in place: the clause that executes, at the top of memory. -/
def topNop : State := withWord 0xFFFE#16 0x0800#16 (at_ 0xFFFE#16 [])

theorem witness_StepRunsTheDecodedInstruction :
    { topNop with halted := true }.halted = true ∧
    (at_ 0xFFFF#16 []).halted = false ∧ isOdd (at_ 0xFFFF#16 []).pc = true ∧
    AddrSet.has { topNop with stored := [0xFFFE] }.stored topNop.pc.toNat = true ∧
    AddrSet.has { topNop with stored := [0xFFFE] }.stored (topNop.pc.toNat + 1) = false ∧
    AddrSet.has { topNop with stored := [0xFFFF] }.stored topNop.pc.toNat = false ∧
    AddrSet.has { topNop with stored := [0xFFFF] }.stored (topNop.pc.toNat + 1) = true ∧
    Memory.get { topNop with mem := [(0xFFFE, 0x08#8)] }.mem (topNop.pc.toNat + 1) = none ∧
    Memory.get { topNop with mem := [(0xFFFF, 0x00#8)] }.mem topNop.pc.toNat = none ∧
    topNop.halted = false ∧ isOdd topNop.pc = false ∧ topNop.stored = [] ∧
    Memory.get topNop.mem topNop.pc.toNat = some 0x08#8 ∧
    Memory.get topNop.mem (topNop.pc.toNat + 1) = some 0x00#8 := by decide

theorem witness_PlacedWordIsRunNext : isOdd State.reset.pc = false ∧ isOdd (at_ 0x0101#16 []).pc = true := by decide

theorem witness_RotateImmediateResults :
    (0x1F#5).toNat % 16 = 15 ∧ (0x10#5).toNat % 16 = 0 ∧ ((at_ 0#16 [(.r2, 0x8001#16)]).reg .r2).toNat = 0x8001 := by
  decide

theorem witness_ImmediateIdioms : (1 ≤ 1 ∧ 1 ≤ 15) ∧ (1 ≤ 15 ∧ 15 ≤ 15) ∧ (0x10#5 = 0x00#5 ∨ 0x10#5 = 0x10#5) := by decide

theorem witness_RotateRegisterResults :
    ((at_ 0#16 [(.r2, 0xFFFF#16)]).reg .r2).toNat % 16 = 15 ∧ ((at_ 0#16 [(.r2, 0xFFF0#16)]).reg .r2).toNat % 16 = 0 := by
  decide

theorem witness_RegisterShiftIsItsImmediateTwin :
    (0x14#5).toNat % 16 = ((at_ 0#16 [(.r2, 0xFFF4#16)]).reg .r2).toNat % 16 := by decide

/-- The least difference that overflows and the greatest that does not, on the positive side. -/
theorem witness_SetLessThanIsSignUnlessOverflow :
    (0x7FFF#16).toInt - (0x0000#16).toInt ≤ 32767 ∧ ¬((0x7FFF#16).toInt - (0xFFFF#16).toInt ≤ 32767) ∧
    -32768 ≤ (0x8000#16).toInt - (0x0000#16).toInt ∧ ¬(-32768 ≤ (0x8000#16).toInt - (0x0001#16).toInt) := by decide

/-- A word at each end of memory, and a lone byte whose partner has no value. -/
def ends : State :=
  { at_ 0x0100#16 [(.r2, 0xFFFE#16), (.r3, 0x0010#16)] with
    mem := [(0, 0x12#8), (1, 0x34#8), (0x10, 0x56#8), (0x13, 0x78#8), (0xFFFE, 0x9A#8), (0xFFFF, 0xBC#8)] }

theorem witness_LoadResult :
    trunc16 ((ends.reg .r2).toNat + (0x00#5).toInt) = 0xFFFE#16 ∧
    Memory.get ends.mem 0xFFFE = some 0x9A#8 ∧ Memory.get ends.mem 0xFFFF = some 0xBC#8 ∧
    trunc16 ((ends.reg .r2).toNat + (0x02#5).toInt) = 0x0000#16 ∧
    Memory.get ends.mem 0 = some 0x12#8 ∧ Memory.get ends.mem 1 = some 0x34#8 ∧
    trunc16 ((ends.reg .r2).toNat + (0x01#5).toInt) = 0xFFFF#16 ∧
    trunc16 ((ends.reg .r3).toNat + (0x00#5).toInt) = 0x0010#16 ∧ Memory.get ends.mem 0x11 = none ∧
    trunc16 ((ends.reg .r3).toNat + (0x02#5).toInt) = 0x0012#16 ∧ Memory.get ends.mem 0x12 = none := by decide

theorem witness_StoreResult : (trunc16 ((ends.reg .r2).toNat + (0x00#5).toInt)).toNat % 2 = 0 ∧
    ends.config.byteOrder = .big ∧ { ends with config := { ends.config with byteOrder := .little } }.config.byteOrder =
      .little := by decide

theorem witness_StoreWithUpdateResult : (trunc16 ((ends.reg .r2).toNat + (0x02#5).toInt)).toNat % 2 = 0 := by decide

theorem witness_OddDataAddressFaults : (trunc16 ((ends.reg .r2).toNat + (0x01#5).toInt)).toNat % 2 = 1 := by decide

theorem witness_MemReadFollowsItsRule : (0xFFFF#16).toNat % 2 = 1 ∧ (0xFFFE#16).toNat % 2 = 0 ∧
    Memory.get ends.mem 0x11 = none ∧ Memory.get ends.mem 0x12 = none ∧ Memory.get ends.mem 0xFFFE = some 0x9A#8 ∧
    Memory.get ends.mem 0xFFFF = some 0xBC#8 := by decide

theorem witness_MemWriteFollowsItsRule : (0x0001#16).toNat % 2 = 1 ∧ (0x0000#16).toNat % 2 = 0 := by decide

theorem witness_LoadReturnsTheLastStore :
    ∃ t, exec (.st .r3 .r2 0x00#5) ends = .next t ∧ effectiveAddress t .r2 0x00#5 = effectiveAddress ends .r2 0x00#5 ∧
      effectiveAddress t .r2 0x02#5 ≠ effectiveAddress ends .r2 0x00#5 ∧
      ∃ u, exec (.ld .r5 .r2 0x02#5) ends = .next u := ⟨_, rfl, by decide, by decide, _, rfl⟩

theorem witness_PushThenPopRestores : isOdd (ends.reg .r2) = false ∧ Reg.r5 ≠ Reg.r2 := by decide

theorem witness_LoadOfCodeGivesTheInstructionWord :
    fetch (withWord 0x0100#16 0x8A20#16 (at_ 0x0100#16 [(.r2, 0x0100#16)])) = .next 0x8A20#16 ∧
    effectiveAddress (at_ 0x0100#16 [(.r2, 0x0100#16)]) .r2 0x00#5 = 0x0100#16 := ⟨rfl, by decide⟩

theorem witness_BranchResults : ((at_ 0#16 [(.r1, 0x0000#16)]).reg .r1).toNat = 0 ∧
    ((at_ 0#16 [(.r1, 0x8000#16)]).reg .r1).toNat ≠ 0 ∧ ((at_ 0#16 [(.r1, 0x8000#16)]).reg .r1).toInt < 0 ∧
    0 ≤ ((at_ 0#16 [(.r1, 0x7FFF#16)]).reg .r1).toInt := by decide

theorem witness_CallThenReturnComesBack :
    (∃ t u, exec (.jal 0x006#11) (at_ 0x0100#16 []) = .next t ∧ execAll [.addi .r1 .r1 0x01#5] t = .next u) ∧
    (∃ t u, exec (.jalr .r7 0x02#8) (at_ 0x0100#16 [(.r7, 0x0300#16)]) = .next t ∧
      execAll [.addi .r1 .r1 0x01#5] t = .next u) ∧
    Reg.link ∉ writtenRegs (.addi .r1 .r1 0x01#5) := ⟨⟨_, _, rfl, rfl⟩, ⟨_, _, rfl, rfl⟩, by decide⟩

theorem witness_NopResult : { ends with config := basePart }.config.excSupport = false := by decide
theorem witness_SiicTakesIllegalOp : State.reset.config.excSupport = true := by decide
theorem witness_SiicIsRefusedWithoutTheOptionalPart :
    { State.reset with config := basePart }.config.excSupport = false := by decide
theorem witness_RtiReturnsToEpc : State.reset.config.excSupport = true := by decide

theorem witness_HandlerReturnsAfterTheSiic :
    State.reset.config.excSupport = true ∧ Instr.siic ∉ [Instr.addi .r5 .r5 0x01#5] ∧
    ∃ t u, exec .siic State.reset = .next t ∧ execAll [.addi .r5 .r5 0x01#5] t = .next u :=
  ⟨by decide, by decide, _, _, rfl, rfl⟩

theorem witness_ProgramCounterAfterEveryInstruction :
    (∃ t, exec (.stu .r3 .r2 0x00#5) ends = .next t) ∧ (∃ t, exec .rti ends = .next t) ∧
    (∃ t, exec (.bltz .r2 0x80#8) ends = .next t) := ⟨⟨_, rfl⟩, ⟨_, rfl⟩, ⟨_, rfl⟩⟩

theorem witness_OnlyListedRegistersAreWritten :
    (∃ t, exec (.stu .r3 .r2 0x00#5) ends = .next t) ∧ Reg.r2 ∈ writtenRegs (.stu .r3 .r2 0x00#5) ∧
    Instr.mnemonic (.jalr .r1 0x00#8) ∉ ["LD", "ST", "STU", "SIIC"] := ⟨⟨_, rfl⟩, by decide, by decide⟩

theorem witness_OnlyListedRegistersAreRead :
    Reg.r1 ∉ readRegs (.jalr .r7 0x00#8) ∧ Reg.r1 ∉ writtenRegs (.jalr .r7 0x00#8) ∧
    Reg.r7 ∉ readRegs (.jalr .r1 0x00#8) ∧ Reg.r7 ∈ writtenRegs (.jalr .r1 0x00#8) := by decide

theorem witness_OnlySiicWritesEpc :
    (∃ t, exec .siic State.reset = .next t) ∧ (∃ t, exec .rti State.reset = .next t) := ⟨⟨_, rfl⟩, ⟨_, rfl⟩⟩

theorem witness_OnlyStoresChangeMemory :
    (∃ t, exec (.st .r3 .r2 0x00#5) ends = .next t) ∧ (∃ t, exec (.ld .r3 .r2 0x00#5) ends = .next t) :=
  ⟨⟨_, rfl⟩, ⟨_, rfl⟩⟩

theorem witness_OnlyHaltHalts :
    (∃ t, fetch topNop = .next 0x0800#16 ∧ step topNop = .next t) ∧
    (∃ t, fetch (State.reset.withFetchWord 16 0) = .next 0x0000#16 ∧
      step (State.reset.withFetchWord 16 0) = .next t ∧ t.halted = true) := ⟨⟨_, rfl, rfl⟩, ⟨_, rfl, rfl, rfl⟩⟩

/-- `ST R2, R2, 0` about to store over the next word but one, a NOP between. -/
def storeAhead : State :=
  withWord 0x0102#16 0x0800#16 (withWord 0x0100#16 0x8240#16 (at_ 0x0100#16 [(.r2, 0x0104#16)]))

theorem witness_StepsKeepConfigValuesAndStored :
    (∃ t, step storeAhead = .next t) ∧ (Memory.get storeAhead.mem 0x0100).isSome = true ∧
    AddrSet.has { storeAhead with stored := [5] }.stored 5 = true := ⟨⟨_, rfl⟩, by decide, by decide⟩

theorem witness_StoredWordsAreNeverExecuted :
    ∃ t u, exec (.st .r2 .r2 0x00#5) storeAhead = .next t ∧ run 1 t = .next u ∧ u.halted = false ∧
      u.pc = trunc16 ((storeAhead.reg .r2).toNat + (0x00#5).toInt) := ⟨_, _, rfl, rfl, rfl, by decide⟩

theorem witness_EvenTargetsKeepThePcEven :
    (∃ t, exec (.jr .r1 0x01#8) (at_ 0x0100#16 [(.r1, 0x0201#16)]) = .next t) ∧
    isOdd (at_ 0x0100#16 [(.r1, 0x0201#16)]).pc = false ∧
    EvenTarget (.jr .r1 0x01#8) (at_ 0x0100#16 [(.r1, 0x0201#16)]) := ⟨⟨_, rfl⟩, by decide, rfl⟩

theorem witness_RunHasAtMostOneEnd :
    ∃ t, EndsIn 1 (State.reset.withFetchWord 16 0) t := ⟨_, rfl, rfl⟩

theorem witness_ResetMeetsTheInvariant :
    Memory.wf [(0, 0x20#8), (0xFFFF, 0x04#8)] ∧ isOdd 0xFFFE#16 = false := by decide

theorem witness_EveryStepKeepsTheInvariant : Inv storeAhead ∧ ∃ t, step storeAhead = .next t :=
  ⟨⟨by decide, by decide, (fun _ h => nomatch h), fun _ _ => rfl, by decide⟩, _, rfl⟩

/-- The same words as `topNop`, in the other byte order. -/
def topNopLittle : State :=
  { at_ 0xFFFE#16 [] with
    config := { byteOrder := .little, excSupport := true }
    mem := [(0xFFFE, 0x00#8), (0xFFFF, 0x08#8)] }

theorem witness_ByteOrderIsUnobservable : SameWords topNop topNopLittle where
  exc := rfl
  regs := rfl
  pc := rfl
  epc := rfl
  halted := rfl
  stored := rfl
  words := fun a ha => by
    have hm : topNopLittle.mem = Memory.setWord .little [] 0xFFFE#16 0x0800#16 := by decide
    have hn : topNop.mem = Memory.setWord .big [] 0xFFFE#16 0x0800#16 := by decide
    show Memory.getWord .little topNopLittle.mem a = Memory.getWord .big topNop.mem a
    rw [hm, hn]
    by_cases h : a = 0xFFFE#16
    · rw [h, getWord_setWord_same, getWord_setWord_same]
    · rw [getWord_setWord_ne (by decide) ha h, getWord_setWord_ne (by decide) ha h]
      rfl

end Sys2Proof.Tests
end

section
/-! SUPPORT. A run has at most one end (R7, R231, R238). -/

namespace Sys2Proof.Proofs
open Sys2Proof.Machine

/-- R7, R190: a halted machine has no step. -/
theorem step_ne_next_of_halted {s m : State} (hs : s.halted = true) : step s ≠ .next m := by
  intro h
  obtain ⟨_, hfetch, -⟩ := step_eq_next.mp h
  obtain ⟨hrun, -⟩ := fetch_eq_next.mp hfetch
  simp [hs] at hrun

/-- A run of no steps is over exactly when it starts halted, and it ends where it starts. -/
theorem endsIn_zero {s t : State} : EndsIn 0 s t ↔ s = t ∧ t.halted = true := by
  simp [EndsIn, run_zero]

/-- A longer run ends in `t` exactly when its first step answers a state from which the rest of it does. -/
theorem endsIn_succ {k : Nat} {s t : State} :
    EndsIn (k + 1) s t ↔ ∃ m, step s = .next m ∧ EndsIn k m t := by
  simp only [EndsIn, run_succ_eq_next, ← and_assoc, exists_and_right]

/-- From a halted state the run is over at once. -/
theorem not_endsIn_succ_of_halted {k : Nat} {s t : State} (hs : s.halted = true) : ¬ EndsIn (k + 1) s t := by
  intro h
  obtain ⟨_, hstep, -⟩ := endsIn_succ.mp h
  exact step_ne_next_of_halted hs hstep

/-- Settles O55, by induction on the first run: where one run stops the state is halted, so the other cannot go on;
where both go on they take the same step. -/
theorem runHasAtMostOneEnd : Obligations.RunHasAtMostOneEnd := by
  intro k
  induction k with
  | zero =>
    intro k' s t t' h h'
    obtain ⟨rfl, hs⟩ := endsIn_zero.mp h
    cases k' with
    | zero => exact ⟨rfl, (endsIn_zero.mp h').1⟩
    | succ k' => exact absurd h' (not_endsIn_succ_of_halted hs)
  | succ k ih =>
    intro k' s t t' h h'
    cases k' with
    | zero =>
      obtain ⟨rfl, hs⟩ := endsIn_zero.mp h'
      exact absurd h (not_endsIn_succ_of_halted hs)
    | succ k' =>
      obtain ⟨m, hm, hend⟩ := endsIn_succ.mp h
      obtain ⟨m', hm', hend'⟩ := endsIn_succ.mp h'
      obtain rfl : m = m' := by simpa [hm] using hm'
      obtain ⟨rfl, rfl⟩ := ih k' m t t' hend hend'
      exact ⟨rfl, rfl⟩

end Sys2Proof.Proofs
end

section
/-! SUPPORT. What every instruction does to the registers, the pc, EPC, memory and `Stored`
(10_state.md R23 to R33), and what follows for every step. -/

namespace Sys2Proof.Proofs
open Sys2Proof.Machine

/-! ## ST, STU, LD and SIIC where they answered, and RTI, which always does -/

section Inversion
variable {s t : State} {rd rs : Reg} {i : BitVec 5}

theorem exec_st_eq_next : exec (.st rd rs i) s = .next t ↔
    isOdd (effectiveAddress s rs i) = false ∧
      (s.storeWord (effectiveAddress s rs i) (s.reg rd)).setPc s.nextPc = t := by
  change execSt rd rs i s = _ ↔ _
  rw [execSt_eq]
  split <;> simp [*]

theorem exec_stu_eq_next : exec (.stu rd rs i) s = .next t ↔
    isOdd (effectiveAddress s rs i) = false ∧
      ((s.storeWord (effectiveAddress s rs i) (s.reg rd)).setReg rs
        (effectiveAddress s rs i)).setPc s.nextPc = t := by
  change execStu rd rs i s = _ ↔ _
  rw [execStu_eq]
  split <;> simp [*]

theorem exec_ld_eq_next : exec (.ld rd rs i) s = .next t ↔
    ∃ v, memRead s (effectiveAddress s rs i) = .next v ∧ (s.setReg rd v).setPc s.nextPc = t := by
  change execLd rd rs i s = _ ↔ _
  simp [execLd, andThen_eq_next, writeBack_eq]

theorem exec_siic_eq_next : exec .siic s = .next t ↔
    s.config.excSupport = true ∧ takeIllegalOp s = t := by
  change execSiic s = _ ↔ _
  rw [execSiic_eq]
  split <;> simp [*]

theorem exec_rti_eq (s : State) : exec .rti s =
    .next (s.setPc (if s.config.excSupport then s.epc else s.nextPc)) := by
  change execRti s = _
  rw [execRti_eq]
  split <;> rfl

end Inversion

/-! ## The program counter (R27, R29) -/

theorem isZero_iff (v : Word) : isZero v = true ↔ v = 0 := beq_iff_eq

theorem isNegative_iff (v : Word) : isNegative v = true ↔ v.toInt < 0 := by
  have hmsb : isNegative v = v.msb := (BitVec.msb_eq_getLsbD_last v).symm
  rw [hmsb, BitVec.msb_eq_toInt, decide_eq_true_iff]

/-- A branch's pc in the terms of the table of R27, for a condition `p` that the tested bit decides. -/
theorem branch_pc_eq {c : Bool} {p : Prop} [Decidable p] (hc : c = true ↔ p) (s : State) (i : BitVec 8) :
    (if c then branchTarget s i else s.nextPc) =
      if p then trunc16 (s.pc.toNat + 2 + i.toInt) else trunc16 (s.pc.toNat + 2) := by
  rw [← branchTarget_eq, ← nextPc_eq]
  exact if_congr hc rfl rfl

/-- The pc after an instruction is the one the table of R27 gives it. -/
theorem exec_pc {i : Instr} {s t : State} (h : exec i s = .next t) : t.pc = pcAfter i s := by
  cases i with
  | j d => cases h; exact displacementTarget_eq s d
  | jal d => cases h; exact displacementTarget_eq s d
  | jr rs i => cases h; exact registerTarget_eq s rs i
  | jalr rs i => cases h; exact registerTarget_eq s rs i
  | ret => cases h; rfl
  | beqz rs i => cases h; exact branch_pc_eq (isZero_iff _) s i
  | bnez rs i => cases h; exact branch_pc_eq (by rw [Bool.not_eq_true', Ne, ← isZero_iff, Bool.not_eq_true]) s i
  | bltz rs i => cases h; exact branch_pc_eq (isNegative_iff _) s i
  | siic => obtain ⟨-, rfl⟩ := exec_siic_eq_next.mp h; rfl
  | rti => rw [exec_rti_eq] at h; cases h; rw [pcAfter, ← nextPc_eq]; rfl
  | st rd rs i => obtain ⟨-, rfl⟩ := exec_st_eq_next.mp h; exact nextPc_eq s
  | stu rd rs i => obtain ⟨-, rfl⟩ := exec_stu_eq_next.mp h; exact nextPc_eq s
  | ld rd rs i => obtain ⟨-, -, rfl⟩ := exec_ld_eq_next.mp h; exact nextPc_eq s
  | _ => cases h; exact nextPc_eq s

/-- Settles O46: the pc by the table of R27, and HALT stops the machine (R190). -/
theorem programCounterAfterEveryInstruction : Obligations.ProgramCounterAfterEveryInstruction := by
  intro i s t h
  refine ⟨exec_pc h, ?_⟩
  rintro rfl
  cases h
  rfl

/-- Sign extension keeps bit 0, and with it the parity of a displacement. -/
theorem isOdd_sext8 (i : BitVec 8) : isOdd (sext8 i) = i.getLsbD 0 := by
  rw [isOdd, sext8, BitVec.getLsbD_signExtend]
  simp

theorem isOdd_sext11 (d : BitVec 11) : isOdd (sext11 d) = d.getLsbD 0 := by
  rw [isOdd, sext11, BitVec.getLsbD_signExtend]
  simp

section Parity
variable {s : State}

theorem sequential_even (hs : isOdd s.pc = false) : isOdd (trunc16 (s.pc.toNat + 2)) = false := by
  rw [← nextPc_eq, isOdd_nextPc, hs]

theorem displacement_even {d : BitVec 11} (hs : isOdd s.pc = false) (hd : d.getLsbD 0 = false) :
    isOdd (trunc16 (s.pc.toNat + 2 + d.toInt)) = false := by
  rw [← displacementTarget_eq, displacementTarget, isOdd_add, isOdd_nextPc, isOdd_sext11, hs, hd, Bool.xor_false]

theorem branch_even {i : BitVec 8} {p : Prop} [Decidable p] (hs : isOdd s.pc = false) (hi : i.getLsbD 0 = false) :
    isOdd (if p then trunc16 (s.pc.toNat + 2 + i.toInt) else trunc16 (s.pc.toNat + 2)) = false := by
  split
  · rw [← branchTarget_eq, branchTarget, isOdd_add, isOdd_nextPc, isOdd_sext8, hs, hi, Bool.xor_false]
  · exact sequential_even hs

/-- A register and an immediate of the same parity have an even sum. -/
theorem registerSum_even {rs : Reg} {i : BitVec 8} (h : isOdd (s.reg rs) = i.getLsbD 0) :
    isOdd (trunc16 ((s.reg rs).toNat + i.toInt)) = false := by
  rw [← registerTarget_eq, registerTarget, isOdd_add, isOdd_sext8, h, Bool.xor_self]

/-- Every row of the table of R27 is even where the pc and the row's target are. -/
theorem pcAfter_even {i : Instr} (hs : isOdd s.pc = false) (hi : EvenTarget i s) : isOdd (pcAfter i s) = false := by
  cases i with
  | j d => exact displacement_even hs hi
  | jal d => exact displacement_even hs hi
  | jr rs i => exact registerSum_even hi
  | jalr rs i => exact registerSum_even hi
  | ret => exact hi
  | beqz rs i => exact branch_even hs hi
  | bnez rs i => exact branch_even hs hi
  | bltz rs i => exact branch_even hs hi
  | siic => exact (by decide : isOdd 0x0002#16 = false)
  | rti =>
    rw [pcAfter]
    split
    · exact hi
    · exact sequential_even hs
  | _ => exact sequential_even hs

end Parity

/-- Settles O54, from the pc of every instruction. -/
theorem evenTargetsKeepThePcEven : Obligations.EvenTargetsKeepThePcEven := by
  intro i s t h hs hi
  rw [exec_pc h]
  exact pcAfter_even hs hi

/-! ## Registers written (R24), calls and returns (R23) -/

/-- An instruction writes no register its row does not list. -/
theorem exec_regs_frame {i : Instr} {s t : State} (h : exec i s = .next t) :
    RegsSameExcept (writtenRegs i) s t := by
  rcases exec_next_cases h with ⟨rd, v, hw, p, rfl⟩ | ⟨-, p, rfl⟩ | ⟨rd, rs, i5, rfl, -, rfl⟩ |
    ⟨rd, rs, i5, rfl, -, rfl⟩ | ⟨-, -, rfl⟩ | ⟨-, rfl⟩
  · rw [hw]
    exact (frame_setReg_setPc s rd v p).1
  · exact fun _ _ => rfl
  · exact fun _ _ => rfl
  · exact fun r hr => reg_setReg_ne (List.ne_of_not_mem_cons hr)
  · exact fun _ _ => rfl
  · exact fun _ _ => rfl

/-- Only LD, ST, STU and SIIC can stop. -/
theorem exec_answers {i : Instr} (h : i.mnemonic ∉ ["LD", "ST", "STU", "SIIC"]) (s : State) :
    ∃ t, exec i s = .next t := by
  cases i with
  | ld | st | stu | siic => simp [Instr.mnemonic] at h
  | rti => exact ⟨_, exec_rti_eq s⟩
  | _ => exact ⟨_, rfl⟩

/-- Settles O47: the registers by the inversion of `exec`, the answers instruction by instruction. -/
theorem onlyListedRegistersAreWritten : Obligations.OnlyListedRegistersAreWritten :=
  fun _ s => ⟨fun _ => exec_regs_frame, fun h => exec_answers h s⟩

/-- A register that no instruction of a body lists as written holds after the body what it held before it. -/
theorem execAll_keeps_reg {r : Reg} {body : List Instr} (hbody : ∀ i ∈ body, r ∉ writtenRegs i) {s t : State}
    (h : execAll body s = .next t) : t.reg r = s.reg r := by
  induction body generalizing s with
  | nil => cases h; rfl
  | cons i rest ih =>
    obtain ⟨hi, hrest⟩ := List.forall_mem_cons.mp hbody
    obtain ⟨m, hm, h⟩ := execAll_cons_eq_next.mp h
    calc t.reg r = m.reg r := ih hrest h
      _ = s.reg r := exec_regs_frame hm r hi

/-- Settles O39: the call leaves the address after it in R7, the body keeps R7, and RET jumps there. -/
theorem callThenReturnComesBack : Obligations.CallThenReturnComesBack := by
  intro s t u call body hcall hbody ht hu
  have hlink : t.reg Reg.link = s.nextPc := by
    rcases hcall with ⟨d, rfl⟩ | ⟨rs, i, rfl⟩ <;> cases ht <;> exact reg_setReg_same ..
  refine ⟨u.setPc (u.reg Reg.link), rfl, ?_⟩
  rw [setPc_pc, execAll_keeps_reg hbody hu, hlink, nextPc_eq]

/-! ## Registers read (R24) -/

/-- `o'` is `o` but for register `r`, which holds `v` in the next state of `o'`; where `written` lists `r`, the two
are the same. -/
def SameBut (r : Reg) (v : Word) (written : List Reg) (o o' : Host.Outcome State Fault Refusal) : Prop :=
  (r ∉ written → o' = mapNext (fun t => t.setReg r v) o) ∧ (r ∈ written → o' = o)

namespace SameBut
variable {r : Reg} {v : Word} {s : State} {x y : Word}

theorem reg_eq {q : Reg} (h : r ∉ [q]) : (s.setReg r v).reg q = s.reg q :=
  reg_setReg_ne (Ne.symm (List.ne_of_not_mem_cons h))

theorem fault {written : List Reg} (e : Fault) : SameBut r v written (.fault e) (.fault e) :=
  ⟨fun _ => rfl, fun _ => rfl⟩

theorem jumpTo (h : y = x) : SameBut r v [] (Machine.jumpTo x s) (Machine.jumpTo y (s.setReg r v)) := by
  subst h
  exact ⟨fun _ => rfl, nofun⟩

theorem branchIf {c d : Bool} {i : BitVec 8} (h : d = c) :
    SameBut r v [] (Machine.branchIf c i s) (Machine.branchIf d i (s.setReg r v)) := by
  subst h
  exact ⟨fun _ => rfl, nofun⟩

/-- A register written last, then the pc: the order of the two writes is not seen, and the first of two writes to
one register is not either. -/
theorem setReg_setPc (rd : Reg) (p : Word) :
    SameBut r v [rd] (.next ((s.setReg rd x).setPc p)) (.next (((s.setReg r v).setReg rd x).setPc p)) := by
  refine ⟨fun h => ?_, fun h => ?_⟩
  · rw [setReg_comm (List.ne_of_not_mem_cons h)]
    rfl
  · rw [List.mem_singleton.mp h, setReg_setReg_same]

theorem writeBack {rd : Reg} (h : y = x) :
    SameBut r v [rd] (Machine.writeBack rd x s) (Machine.writeBack rd y (s.setReg r v)) := by
  subst h
  exact setReg_setPc rd s.nextPc

theorem linkAndJump (h : y = x) :
    SameBut r v [Reg.link] (Machine.linkAndJump x s) (Machine.linkAndJump y (s.setReg r v)) := by
  subst h
  exact setReg_setPc Reg.link y

/-- A result computed from one register. -/
theorem unary {rd rs : Reg} (f : Word → Word) (h : r ∉ [rs]) :
    SameBut r v [rd] (Machine.writeBack rd (f (s.reg rs)) s)
      (Machine.writeBack rd (f ((s.setReg r v).reg rs)) (s.setReg r v)) :=
  writeBack (by rw [reg_eq h])

/-- A result computed from two registers. -/
theorem binary {rd rs rt : Reg} (f : Word → Word → Word) (h : r ∉ [rs, rt]) :
    SameBut r v [rd] (Machine.writeBack rd (f (s.reg rs) (s.reg rt)) s)
      (Machine.writeBack rd (f ((s.setReg r v).reg rs) ((s.setReg r v).reg rt)) (s.setReg r v)) := by
  rw [List.mem_cons, not_or] at h
  obtain ⟨hs, ht⟩ := h
  exact writeBack (by rw [reg_setReg_ne (Ne.symm hs), reg_eq ht])

theorem effectiveAddress_eq {rs : Reg} {i : BitVec 5} (h : r ∉ [rs]) :
    effectiveAddress (s.setReg r v) rs i = effectiveAddress s rs i :=
  congrArg (· + sext5 i) (reg_eq h)

theorem execSiic : SameBut r v [] (Machine.execSiic s) (Machine.execSiic (s.setReg r v)) := by
  rw [execSiic_eq, execSiic_eq, setReg_config]
  split <;> exact ⟨fun _ => rfl, nofun⟩

/-- LD reads its word from memory, which the changed register is no part of. -/
theorem execLd {rd rs : Reg} {i : BitVec 5} (h : r ∉ [rs]) :
    SameBut r v [rd] (Machine.execLd rd rs i s) (Machine.execLd rd rs i (s.setReg r v)) := by
  have hread : memRead (s.setReg r v) (effectiveAddress s rs i) = memRead s (effectiveAddress s rs i) := rfl
  rw [Machine.execLd, Machine.execLd, effectiveAddress_eq h, hread]
  rcases memRead_cases s (effectiveAddress s rs i) with ⟨-, e⟩ | ⟨-, -, e⟩ | ⟨x, -, -, e⟩ <;> rw [e]
  · exact fault _
  · exact fault _
  · exact writeBack rfl

theorem execSt {rd rs : Reg} {i : BitVec 5} (h : r ∉ [rd, rs]) :
    SameBut r v [] (Machine.execSt rd rs i s) (Machine.execSt rd rs i (s.setReg r v)) := by
  rw [List.mem_cons, not_or] at h
  obtain ⟨hd, hs⟩ := h
  rw [execSt_eq, execSt_eq, effectiveAddress_eq hs, reg_setReg_ne (Ne.symm hd)]
  split
  · exact fault _
  · exact ⟨fun _ => rfl, nofun⟩

theorem execStu {rd rs : Reg} {i : BitVec 5} (h : r ∉ [rd, rs]) :
    SameBut r v [rs] (Machine.execStu rd rs i s) (Machine.execStu rd rs i (s.setReg r v)) := by
  rw [List.mem_cons, not_or] at h
  obtain ⟨hd, hs⟩ := h
  rw [execStu_eq, execStu_eq, effectiveAddress_eq hs, reg_setReg_ne (Ne.symm hd)]
  split
  · exact fault _
  · exact setReg_setPc (s := s.storeWord _ _) rs s.nextPc

end SameBut

/-- No instruction depends on a register its row does not list as read. -/
theorem exec_setReg_unread {i : Instr} {r : Reg} (h : r ∉ readRegs i) (s : State) (v : Word) :
    SameBut r v (writtenRegs i) (exec i s) (exec i (s.setReg r v)) := by
  cases i with
  | halt => exact ⟨fun _ => rfl, nofun⟩
  | nop => exact .jumpTo rfl
  | siic => exact .execSiic
  | rti => rw [exec_rti_eq, exec_rti_eq]; exact .jumpTo rfl
  | j d => exact .jumpTo rfl
  | jal d => exact .linkAndJump rfl
  | jr rs i => exact .jumpTo (congrArg (· + sext8 i) (SameBut.reg_eq h))
  | jalr rs i => exact .linkAndJump (congrArg (· + sext8 i) (SameBut.reg_eq h))
  | ret => exact .jumpTo (SameBut.reg_eq h)
  | beqz rs i => exact .branchIf (congrArg isZero (SameBut.reg_eq h))
  | bnez rs i => exact .branchIf (congrArg (fun a => !isZero a) (SameBut.reg_eq h))
  | bltz rs i => exact .branchIf (congrArg isNegative (SameBut.reg_eq h))
  | ld rd rs i => exact .execLd h
  | st rd rs i => exact .execSt h
  | stu rd rs i => exact .execStu h
  | lbi rs i => exact .writeBack rfl
  | slbi rs i => exact .unary (shiftInByte · i) h
  | addi rd rs i => exact .unary (· + sext5 i) h
  | subi rd rs i => exact .unary (sext5 i - ·) h
  | ori rd rs i => exact .unary (· ||| zext5 i) h
  | andi rd rs i => exact .unary (· &&& zext5 i) h
  | roli rd rs i => exact .unary (rotateLeft · (immAmount i)) h
  | slli rd rs i => exact .unary (shiftLeft · (immAmount i)) h
  | rori rd rs i => exact .unary (rotateRight · (immAmount i)) h
  | srai rd rs i => exact .unary (shiftRightArith · (immAmount i)) h
  | btr rd rs => exact .unary bitReverse h
  | rol rd rs rt => exact .binary (fun a b => rotateLeft a (regAmount b)) h
  | sll rd rs rt => exact .binary (fun a b => shiftLeft a (regAmount b)) h
  | ror rd rs rt => exact .binary (fun a b => rotateRight a (regAmount b)) h
  | sra rd rs rt => exact .binary (fun a b => shiftRightArith a (regAmount b)) h
  | add rd rs rt => exact .binary (fun a b => a + b) h
  | sub rd rs rt => exact .binary (fun a b => b - a) h
  | or rd rs rt => exact .binary (fun a b => a ||| b) h
  | and rd rs rt => exact .binary (fun a b => a &&& b) h
  | seq rd rs rt => exact .binary (fun a b => conditionWord (condEq a b)) h
  | slt rd rs rt => exact .binary (fun a b => conditionWord (condLt a b)) h
  | sle rd rs rt => exact .binary (fun a b => conditionWord (condLe a b)) h
  | sco rd rs rt => exact .binary (fun a b => conditionWord (carryOut a b)) h

/-- Settles O48, instruction by instruction (`exec_setReg_unread`). -/
theorem onlyListedRegistersAreRead : Obligations.OnlyListedRegistersAreRead :=
  fun _ s _ v h => exec_setReg_unread h s v

/-! ## EPC, the parameters, memory and `Stored` (R32, R33, R45, R231) -/

/-- EPC is what it was after every instruction but SIIC. -/
theorem exec_epc_of_ne_siic {i : Instr} {s t : State} (hi : i ≠ .siic) (h : exec i s = .next t) :
    t.epc = s.epc := by
  rcases exec_next_cases h with ⟨_, _, -, _, rfl⟩ | ⟨-, _, rfl⟩ | ⟨_, _, _, -, -, rfl⟩ |
    ⟨_, _, _, -, -, rfl⟩ | ⟨rfl, -, -⟩ | ⟨-, rfl⟩
  · rfl
  · rfl
  · rfl
  · rfl
  · contradiction
  · rfl

/-- EPC after every instruction: SIIC saves the address after itself. -/
theorem exec_epc {i : Instr} {s t : State} (h : exec i s = .next t) :
    t.epc = if i = .siic then s.nextPc else s.epc := by
  split
  · next hi =>
    subst hi
    obtain ⟨-, rfl⟩ := exec_siic_eq_next.mp h
    rfl
  · next hi => exact exec_epc_of_ne_siic hi h

/-- Settles O49: `exec_epc` in the exact-integer terms of R5. -/
theorem onlySiicWritesEpc : Obligations.OnlySiicWritesEpc := by
  intro i s t h
  rw [exec_epc h, nextPc_eq]

theorem exec_config {i : Instr} {s t : State} (h : exec i s = .next t) : t.config = s.config := by
  rcases exec_next_cases h with ⟨_, _, -, _, rfl⟩ | ⟨-, _, rfl⟩ | ⟨_, _, _, -, -, rfl⟩ |
    ⟨_, _, _, -, -, rfl⟩ | ⟨-, -, rfl⟩ | ⟨-, rfl⟩ <;> rfl

/-- All an instruction can do to memory and `Stored`: nothing, or the store of one word at an even address. -/
theorem exec_memory_cases {i : Instr} {s t : State} (h : exec i s = .next t) :
    (t.mem = s.mem ∧ t.stored = s.stored) ∨
    ∃ a v, isOdd a = false ∧ t.mem = (s.storeWord a v).mem ∧ t.stored = (s.storeWord a v).stored := by
  rcases exec_next_cases h with ⟨_, _, -, _, rfl⟩ | ⟨-, _, rfl⟩ | ⟨_, _, _, -, ha, rfl⟩ |
    ⟨_, _, _, -, ha, rfl⟩ | ⟨-, -, rfl⟩ | ⟨-, rfl⟩
  · exact .inl ⟨rfl, rfl⟩
  · exact .inl ⟨rfl, rfl⟩
  · exact .inr ⟨_, _, ha, rfl, rfl⟩
  · exact .inr ⟨_, _, ha, rfl, rfl⟩
  · exact .inl ⟨rfl, rfl⟩
  · exact .inl ⟨rfl, rfl⟩

/-- A store gives its two bytes a value and takes no byte's value away. -/
theorem storeWord_get_isSome (s : State) (a v : Word) (x : Nat) :
    (Memory.get (s.storeWord a v).mem x).isSome =
      (decide (x = a.toNat + 1) || (decide (x = a.toNat) || (Memory.get s.mem x).isSome)) := by
  by_cases h1 : x = a.toNat + 1
  · simp [h1]
  · by_cases h0 : x = a.toNat
    · simp [h0]
    · simp [h0, h1, get_setWord_ne]

/-- Settles O52: a step is an instruction, and an instruction stores one word or none. -/
theorem stepsKeepConfigValuesAndStored : Obligations.StepsKeepConfigValuesAndStored := by
  intro s t h
  obtain ⟨w, -, h⟩ := step_eq_next.mp h
  refine ⟨exec_config h, ?_⟩
  rcases exec_memory_cases h with ⟨hm, hs⟩ | ⟨a, v, -, hm, hs⟩
  · rw [hm, hs]
    exact ⟨fun _ => id, fun _ => id⟩
  · rw [hm, hs]
    refine ⟨fun x hx => ?_, fun x hx => ?_⟩
    · simp only [storeWord_get_isSome, hx, Bool.or_true]
    · simp only [storeWord_has, hx, Bool.or_true]

/-! ## The invariant -/

/-- The invariant speaks of memory, `Stored` and the parity of EPC only. -/
theorem inv_congr {s t : State} (h : Inv s) (hm : t.mem = s.mem) (hs : t.stored = s.stored)
    (he : isOdd t.epc = false) : Inv t where
  mem_wf := hm ▸ h.mem_wf
  stored_wf := hs ▸ h.stored_wf
  stored_has_value := by rw [hm, hs]; exact h.stored_has_value
  stored_pairs := by rw [hs]; exact h.stored_pairs
  epc_even := he

/-- A store at an even address keeps the invariant. -/
theorem inv_storeWord {s : State} {a : Word} (h : Inv s) (ha : isOdd a = false) (v : Word) :
    Inv (s.storeWord a v) where
  mem_wf := setWord_wf h.mem_wf ha
  stored_wf := insert_wf (insert_wf h.stored_wf a.isLt) (toNat_succ_lt ha)
  stored_has_value x hx := by
    simp only [storeWord_has, storeWord_get_isSome, Bool.or_eq_true, decide_eq_true_eq] at hx ⊢
    exact hx.imp_right (Or.imp_right (h.stored_has_value x))
  stored_pairs w hw := by
    rw [storeWord_has, storeWord_has, h.stored_pairs w hw]
    by_cases hwa : w = a
    · simp [hwa]
    · obtain ⟨h0, h1, h2⟩ := even_toNat_ne hw ha hwa
      simp [h0, h1, h2]
  epc_even := h.epc_even

/-- EPC stays even: what SIIC saves is the address after an even pc (R195). -/
theorem exec_epc_even {i : Instr} {s t : State} (hpc : isOdd s.pc = false) (hepc : isOdd s.epc = false)
    (h : exec i s = .next t) : isOdd t.epc = false := by
  rw [exec_epc h]
  split
  · rw [isOdd_nextPc, hpc]
  · exact hepc

/-- Settles O58: a step begins at an even pc, so EPC stays even; memory and `Stored` are left alone or take one word
at an even address. -/
theorem everyStepKeepsTheInvariant : Obligations.EveryStepKeepsTheInvariant := by
  intro s t hinv h
  obtain ⟨w, hfetch, h⟩ := step_eq_next.mp h
  obtain ⟨-, hpc, -, -⟩ := fetch_eq_next.mp hfetch
  have hepc : isOdd t.epc = false := exec_epc_even hpc hinv.epc_even h
  rcases exec_memory_cases h with ⟨hm, hs⟩ | ⟨a, v, ha, hm, hs⟩
  · exact inv_congr hinv hm hs hepc
  · exact inv_congr (inv_storeWord hinv ha v) hm hs hepc

end Sys2Proof.Proofs
end

section
/-! SUPPORT. Memory as a program sees it (20_memory.md): the two data accesses, a load after a store, which
instructions store, and that the byte order is not seen (R48). -/

namespace Sys2Proof.Proofs
open Sys2Proof.Machine

/-! ## The data accesses (R44, R45) -/

theorem memRead_odd {s : State} {a : Word} (h : isOdd a = true) : memRead s a = .fault (.misalignedData a) := by
  simp [memRead, h]

theorem memRead_none {s : State} {a : Word} (h : isOdd a = false) (hw : s.word a = none) :
    memRead s a = .fault (.uninitMemory a) := by
  simp [memRead, h, hw]

theorem memWrite_odd {s : State} {a v : Word} (h : isOdd a = true) :
    memWrite s a v = .fault (.misalignedData a) := by
  simp [memWrite, h]

/-- Settles O30: `memRead` by the parity of the address and the word by its two bytes. -/
theorem memReadFollowsItsRule : Obligations.MemReadFollowsItsRule := by
  refine fun s a => ⟨fun ha => ?_, fun ha hnone => ?_, fun lo hi ha hlo hhi => ?_⟩
  · exact memRead_odd ((isOdd_iff a).mpr ha)
  · exact memRead_none ((isEven_iff a).mpr ha) (word_eq_none hnone)
  · refine ⟨_, memRead_eq_next.mpr ⟨(isEven_iff a).mpr ha, word_eq_some hlo hhi⟩, fun ho => ?_, fun ho => ?_⟩
    · rw [ho, wordOfBytes]
    · rw [ho, wordOfBytes]

/-- What a store leaves alone: the registers, EPC, the halted flag, the parameters, and every byte but its two. -/
theorem storeFrame_storeWord (s : State) (a v : Word) : StoreFrame [] a s (s.storeWord a v) :=
  ⟨fun _ _ => rfl, ⟨rfl, rfl, rfl⟩, fun _ h0 h1 => get_setWord_ne h0 h1, fun x h0 h1 => by
    rw [storeWord_has, decide_eq_false h0, decide_eq_false h1, Bool.false_or, Bool.false_or]⟩

/-- Settles O31: at an even address `memWrite` is `storeWord`, whose two bytes, `Stored` and frame are known. -/
theorem memWriteFollowsItsRule : Obligations.MemWriteFollowsItsRule := by
  refine fun s a v => ⟨fun ha => memWrite_odd ((isOdd_iff a).mpr ha), fun ha => ?_⟩
  obtain ⟨hregs, hcontrol, hbytes, -⟩ := storeFrame_storeWord s a v
  refine ⟨s.storeWord a v, memWrite_even ((isEven_iff a).mpr ha), fun ho => ?_, fun ho => ?_, fun x => ?_,
    hbytes, hregs, rfl, hcontrol⟩
  · rw [storeWord_mem, ho]
    exact ⟨get_setWord_low .., get_setWord_high ..⟩
  · rw [storeWord_mem, ho]
    exact ⟨get_setWord_low .., get_setWord_high ..⟩
  · rw [storeWord_has]
    simp only [Bool.or_eq_true, decide_eq_true_eq]
    tauto

/-! ## A load after a store (R50, R235) -/

/-- A word reads as what was last stored to it. -/
theorem storeWord_word_same (s : State) (a v : Word) : (s.storeWord a v).word a = some v :=
  getWord_setWord_same ..

/-- A store to one aligned word leaves every other aligned word as it was. -/
theorem storeWord_word_ne {s : State} {a b v : Word} (ha : isOdd a = false) (hb : isOdd b = false) (h : b ≠ a) :
    (s.storeWord a v).word b = s.word b :=
  getWord_setWord_ne ha hb h

/-- An LD whose word has a value answers, and its register takes that value. -/
theorem exec_ld_of_memRead {s : State} {rd rs : Reg} {i : BitVec 5} {v : Word}
    (h : memRead s (effectiveAddress s rs i) = .next v) :
    ∃ u, exec (.ld rd rs i) s = .next u ∧ u.reg rd = v :=
  ⟨_, exec_ld_eq_next.mpr ⟨v, h, rfl⟩, reg_setReg_same ..⟩

/-- Settles O32: the load's word in the memory after the store is the stored one, or the one from before. -/
theorem loadReturnsTheLastStore : Obligations.LoadReturnsTheLastStore := by
  intro s t rd rs rd' rs' i i' hst
  obtain ⟨ha, rfl⟩ := exec_st_eq_next.mp hst
  refine ⟨fun hea => exec_ld_of_memRead ?_, fun hea u hu => ?_⟩
  · rw [hea]
    exact memRead_eq_next.mpr ⟨ha, storeWord_word_same ..⟩
  · obtain ⟨v, hv, rfl⟩ := exec_ld_eq_next.mp hu
    obtain ⟨hb, hw⟩ := memRead_eq_next.mp hv
    rw [setPc_reg, reg_setReg_same]
    exact exec_ld_of_memRead (memRead_eq_next.mpr ⟨hb, (storeWord_word_ne ha hb hea).trans hw⟩)

/-! ## Which instructions store (R40, R45) -/

/-- Every instruction but ST and STU leaves memory and `Stored` as they are. -/
theorem exec_keeps_memory {i : Instr} {s t : State} (hi : i.mnemonic ∉ ["ST", "STU"]) (h : exec i s = .next t) :
    t.mem = s.mem ∧ t.stored = s.stored := by
  rcases exec_next_cases h with ⟨_, _, -, _, rfl⟩ | ⟨-, _, rfl⟩ | ⟨_, _, _, rfl, -⟩ | ⟨_, _, _, rfl, -⟩ |
    ⟨-, -, rfl⟩ | ⟨-, rfl⟩
  · exact ⟨rfl, rfl⟩
  · exact ⟨rfl, rfl⟩
  · simp [Instr.mnemonic] at hi
  · simp [Instr.mnemonic] at hi
  · exact ⟨rfl, rfl⟩
  · exact ⟨rfl, rfl⟩

/-- The frame of ST and STU, by the frame of the store they make and the registers they write. -/
theorem storeFrame_of_storeWord {i : Instr} {s t : State} {a v : Word} (h : exec i s = .next t)
    (hm : t.mem = (s.storeWord a v).mem) (hs : t.stored = (s.storeWord a v).stored)
    (hc : ControlSame s t) : StoreFrame (writtenRegs i) a s t := by
  obtain ⟨-, -, hbytes, hstored⟩ := storeFrame_storeWord s a v
  exact ⟨exec_regs_frame h, hc, hm ▸ hbytes, hs ▸ hstored⟩

/-- Settles O50: ST and STU store one word at the effective address, every other instruction stores nothing. -/
theorem onlyStoresChangeMemory : Obligations.OnlyStoresChangeMemory := by
  intro i s t h
  cases i with
  | st rd rs imm =>
    obtain ⟨-, rfl⟩ := exec_st_eq_next.mp h
    exact .inr ⟨rd, rs, imm, .inl rfl, _, effectiveAddress_eq s rs imm,
      storeFrame_of_storeWord h rfl rfl ⟨rfl, rfl, rfl⟩⟩
  | stu rd rs imm =>
    obtain ⟨-, rfl⟩ := exec_stu_eq_next.mp h
    exact .inr ⟨rd, rs, imm, .inr rfl, _, effectiveAddress_eq s rs imm,
      storeFrame_of_storeWord h rfl rfl ⟨rfl, rfl, rfl⟩⟩
  | _ =>
    obtain ⟨hm, hs⟩ := exec_keeps_memory (by simp [Instr.mnemonic]) h
    exact .inl ⟨fun a => by rw [hm], hs⟩

/-! ## The byte order (R48) -/

/-- The machine with its memory laid out anew: another byte order, other bytes, and all else the same. -/
def withLayout (o : ByteOrder) (m : Memory) (s : State) : State :=
  { s with config := { s.config with byteOrder := o }, mem := m }

/-- An instruction that makes no data access does the same whatever the layout of memory, and leaves it as it is. -/
theorem exec_withLayout {i : Instr} (hi : i.mnemonic ∉ ["LD", "ST", "STU"]) (o : ByteOrder) (m : Memory)
    (s : State) : exec i (withLayout o m s) = mapNext (withLayout o m) (exec i s) := by
  cases i with
  | ld | st | stu => simp [Instr.mnemonic] at hi
  | siic =>
    change execSiic _ = mapNext _ (execSiic s)
    rw [execSiic_eq, execSiic_eq, apply_ite (mapNext (withLayout o m))]
    rfl
  | rti => rw [exec_rti_eq, exec_rti_eq]; rfl
  | _ => rfl

namespace SameWords
variable {s t : State} (h : SameWords s t)
include h

/-- Machines that hold the same words are one machine under two layouts of memory. -/
theorem eq_withLayout : t = withLayout t.config.byteOrder t.mem s := by
  obtain ⟨⟨_, _⟩, _, _, _, _, _, _⟩ := s
  obtain ⟨⟨_, _⟩, _, _, _, _, _, _⟩ := t
  obtain ⟨rfl, rfl, rfl, rfl, rfl, rfl, -⟩ := h
  rfl

theorem reg_eq (r : Reg) : t.reg r = s.reg r := by
  rw [State.reg, State.reg, h.regs]

theorem nextPc_eq : t.nextPc = s.nextPc := by
  rw [State.nextPc, State.nextPc, h.pc]

theorem effectiveAddress_eq (rs : Reg) (i : BitVec 5) : effectiveAddress t rs i = effectiveAddress s rs i := by
  rw [effectiveAddress, effectiveAddress, reg_eq h]

theorem memRead_eq (a : Word) : memRead t a = memRead s a := by
  cases ha : isOdd a
  · simp only [memRead, ha, h.words a ha]
  · rw [memRead_odd ha, memRead_odd ha]

theorem fetch_eq : fetch t = fetch s := by
  cases hpc : isOdd s.pc
  · simp only [fetch, h.halted, h.pc, h.stored, h.words s.pc hpc]
  · simp only [fetch, h.halted, h.pc, hpc, if_true]

theorem setPc (p : Word) : SameWords (s.setPc p) (t.setPc p) :=
  { h with pc := rfl }

theorem setReg (r : Reg) (v : Word) : SameWords (s.setReg r v) (t.setReg r v) :=
  { h with regs := by rw [State.setReg, State.setReg, h.regs] }

/-- The one case with content: each machine lays the stored word down in its own order. -/
theorem storeWord {a : Word} (ha : isOdd a = false) (v : Word) : SameWords (s.storeWord a v) (t.storeWord a v) :=
  { h with
    stored := by rw [storeWord_stored, storeWord_stored, h.stored]
    words := fun b hb => by
      by_cases hba : b = a
      · rw [hba, storeWord_word_same, storeWord_word_same]
      · rw [storeWord_word_ne ha hb hba, storeWord_word_ne ha hb hba, h.words b hb] }

/-- Where one of the machines has gone on with memory left alone, the other's layout still holds the same words. -/
theorem next_withLayout {u : State} (hm : u.mem = s.mem) (hc : u.config = s.config) :
    SameWords u (withLayout t.config.byteOrder t.mem u) where
  exc := rfl
  regs := rfl
  pc := rfl
  epc := rfl
  halted := rfl
  stored := rfl
  words a ha := by
    have hu : u.word a = s.word a := by rw [State.word, State.word, hm, hc]
    exact (h.words a ha).trans hu.symm

/-- Instructions that make no data access. -/
theorem exec_of_no_access {i : Instr} (hi : i.mnemonic ∉ ["LD", "ST", "STU"]) :
    SameOutcome (exec i s) (exec i t) := by
  rw [eq_withLayout h, exec_withLayout hi]
  cases hu : exec i s with
  | next u =>
    have hstore : i.mnemonic ∉ ["ST", "STU"] := fun hmem => hi (List.mem_cons_of_mem _ hmem)
    obtain ⟨hm, -⟩ := exec_keeps_memory hstore hu
    exact next_withLayout h hm (exec_config hu)
  | fault r => rfl
  | refused r => rfl

theorem execLd (rd rs : Reg) (i : BitVec 5) : SameOutcome (execLd rd rs i s) (execLd rd rs i t) := by
  rw [Machine.execLd, Machine.execLd, effectiveAddress_eq h, memRead_eq h]
  cases memRead s (effectiveAddress s rs i) with
  | next v =>
    rw [andThen_next, andThen_next, writeBack_eq, writeBack_eq, nextPc_eq h]
    exact setPc (setReg h rd v) _
  | fault r => rfl
  | refused r => rfl

theorem execSt (rd rs : Reg) (i : BitVec 5) : SameOutcome (execSt rd rs i s) (execSt rd rs i t) := by
  rw [execSt_eq, execSt_eq, effectiveAddress_eq h, reg_eq h, nextPc_eq h]
  split
  · rfl
  · next ha => exact setPc (storeWord h (Bool.eq_false_of_not_eq_true ha) _) _

theorem execStu (rd rs : Reg) (i : BitVec 5) : SameOutcome (execStu rd rs i s) (execStu rd rs i t) := by
  rw [execStu_eq, execStu_eq, effectiveAddress_eq h, reg_eq h, nextPc_eq h]
  split
  · rfl
  · next ha => exact setPc (setReg (storeWord h (Bool.eq_false_of_not_eq_true ha) _) rs _) _

/-- No instruction tells the machines apart. -/
theorem exec (i : Instr) : SameOutcome (exec i s) (exec i t) := by
  cases i with
  | ld rd rs i => exact execLd h rd rs i
  | st rd rs i => exact execSt h rd rs i
  | stu rd rs i => exact execStu h rd rs i
  | _ => exact exec_of_no_access h (by simp [Instr.mnemonic])

end SameWords

/-- Settles O59: both machines fetch the same word, or stop alike, and no instruction tells them apart. -/
theorem byteOrderIsUnobservable : Obligations.ByteOrderIsUnobservable := by
  intro s t h
  rw [step, step, SameWords.fetch_eq h]
  cases fetch s with
  | next w => exact SameWords.exec h (decodeWord w)
  | fault r => rfl
  | refused r => rfl

end Sys2Proof.Proofs
end

section
/-! SUPPORT. The decoder against the encoder and against the opcode table (30_encoding.md sections 1 and 3). -/

namespace Sys2Proof.Proofs
open Sys2Proof.Machine

/-- The five bits the decoder looks at first, read as the bits of the opcode field (R61). -/
theorem opcode_bits (w : Word) :
    w.getLsbD 15 = (opcodeField w).getLsbD 4 ∧ w.getLsbD 14 = (opcodeField w).getLsbD 3 ∧
    w.getLsbD 13 = (opcodeField w).getLsbD 2 ∧ w.getLsbD 12 = (opcodeField w).getLsbD 1 ∧
    w.getLsbD 11 = (opcodeField w).getLsbD 0 := (opcodeField_eq_iff w _).mp rfl

/-! ## Decoding what the encoder emits (R62 to R66) -/

/-- Format by format: the opcode chooses the decoder's line, and the line reads the fields the format put there. -/
theorem decodeWord_encode (i : Instr) : decodeWord (encode i) = i := by
  cases i with
  | halt | nop | siic | rti | ret =>
    simp only [encode, decodeWord, opcode_bits, opcode_encodeBare, BitVec.reduceGetLsb]
  | j d | jal d =>
    simp only [encode, decodeWord, opcode_bits, opcode_encodeJ, disp_encodeJ, BitVec.reduceGetLsb]
  | jr rs i | jalr rs i | beqz rs i | bnez rs i | bltz rs i | slbi rs i | lbi rs i =>
    simp only [encode, decodeWord, opcode_bits, opcode_encodeI2, rs_encodeI2, imm8_encodeI2, BitVec.reduceGetLsb]
  | addi rd rs i | subi rd rs i | ori rd rs i | andi rd rs i | st rd rs i | ld rd rs i | stu rd rs i
  | roli rd rs i | slli rd rs i | rori rd rs i | srai rd rs i =>
    simp only [encode, decodeWord, opcode_bits, opcode_encodeI1, rs_encodeI1, mid_encodeI1, imm5_encodeI1,
      BitVec.reduceGetLsb]
  | btr rd rs =>
    simp only [encode, decodeWord, opcode_bits, opcode_encodeR, rs_encodeR, rd_encodeR, BitVec.reduceGetLsb]
  | seq rd rs rt | slt rd rs rt | sle rd rs rt | sco rd rs rt =>
    simp only [encode, decodeWord, opcode_bits, opcode_encodeR, rs_encodeR, mid_encodeR, rd_encodeR, ofBits_bits,
      BitVec.reduceGetLsb]
  | rol rd rs rt | sll rd rs rt | ror rd rs rt | sra rd rs rt =>
    simp only [encode, decodeWord, opcode_bits, opcode_encodeR, decodeShift, funct_encodeR, Nat.reduceLT, rs_encodeR,
      mid_encodeR, rd_encodeR, ofBits_bits, BitVec.reduceGetLsb]
  | add rd rs rt | sub rd rs rt | or rd rs rt | and rd rs rt =>
    simp only [encode, decodeWord, opcode_bits, opcode_encodeR, decodeArith, funct_encodeR, Nat.reduceLT, rs_encodeR,
      mid_encodeR, rd_encodeR, ofBits_bits, BitVec.reduceGetLsb]

/-- The bytes an instruction takes in memory are read back as it, whatever follows them. -/
theorem decode_encodeBytes (o : ByteOrder) (i : Instr) (rest : List Byte) :
    decode o (encodeBytes o i ++ rest) = .ok (i, rest) := by
  change decode o (lowAddressByte o (encode i) :: highAddressByte o (encode i) :: rest) = _
  rw [decode_two, wordOfBytes_bytes, decodeWord_encode]

/-- Settles O2: the word format by format, and the bytes because in either order they make up that word. -/
theorem decodeInvertsEncode : Obligations.DecodeInvertsEncode :=
  fun i => ⟨decodeWord_encode i, fun o rest => decode_encodeBytes o i rest⟩

/-! ## One row for every word (R68, R69): opcode and `funct` choose it -/

/-- Rows that one word meets agree wherever both look. -/
theorem values_agree_of_holds {r r' : OpcodeRow} {w : Word} (h : r.holds w) (h' : r'.holds w) :
    r.value &&& r'.mask = r'.value &&& r.mask := by
  rw [← h, ← h', BitVec.and_assoc, BitVec.and_assoc, BitVec.and_comm r.mask]

/-- No two rows of the table overlap: they differ at a bit that both look at. -/
theorem row_eq_of_values_agree :
    ∀ r ∈ opcodeTable, ∀ r' ∈ opcodeTable, r.value &&& r'.mask = r'.value &&& r.mask → r = r' := by decide

/-- The word with this opcode and these bits 1:0, clear elsewhere: it stands for all words that have them. -/
def keyWord (op : BitVec 5) (funct : BitVec 2) : Word := encodeR op .r0 0b000#3 .r0 funct

/-- The key of a word: its opcode and bits 1:0. -/
theorem and_keyMask (w : Word) : w &&& 0xF803#16 = keyWord (opcodeField w) (w.extractLsb' 0 2) := by
  have hmask : 0xF803#16 = BitVec.allOnes 5 ++ 0#3 ++ 0#3 ++ 0#3 ++ BitVec.allOnes 2 := rfl
  conv_lhs => rw [← encodeR_fields w, hmask, encodeR, BitVec.and_append, BitVec.and_append, BitVec.and_append,
    BitVec.and_append]
  simp only [BitVec.and_allOnes, BitVec.and_zero, keyWord, encodeR, Reg.bits]

/-- No row looks outside the key. -/
theorem keyMask_and_rowMask : ∀ row ∈ opcodeTable, 0xF803#16 &&& row.mask = row.mask := by decide

theorem holds_and_keyMask {row : OpcodeRow} (hrow : row ∈ opcodeTable) (w : Word) :
    row.holds (w &&& 0xF803#16) ↔ row.holds w := by
  rw [OpcodeRow.holds, OpcodeRow.holds, BitVec.and_assoc, keyMask_and_rowMask row hrow]

theorem decodeShift_mnemonic_congr {v w : Word} (h1 : v.getLsbD 1 = w.getLsbD 1) (h0 : v.getLsbD 0 = w.getLsbD 0) :
    (decodeShift v).mnemonic = (decodeShift w).mnemonic := by
  simp only [decodeShift, h1, h0]
  split <;> rfl

theorem decodeArith_mnemonic_congr {v w : Word} (h1 : v.getLsbD 1 = w.getLsbD 1) (h0 : v.getLsbD 0 = w.getLsbD 0) :
    (decodeArith v).mnemonic = (decodeArith w).mnemonic := by
  simp only [decodeArith, h1, h0]
  split <;> rfl

/-- Words of one opcode and one `funct` are the same instruction but for operands. -/
theorem decodeWord_mnemonic_congr {v w : Word} (hop : opcodeField v = opcodeField w)
    (h1 : v.getLsbD 1 = w.getLsbD 1) (h0 : v.getLsbD 0 = w.getLsbD 0) :
    (decodeWord v).mnemonic = (decodeWord w).mnemonic := by
  simp only [decodeWord, opcode_bits, hop]
  split
  case h_27 => exact decodeShift_mnemonic_congr h1 h0
  case h_28 => exact decodeArith_mnemonic_congr h1 h0
  all_goals rfl

theorem decodeWord_and_keyMask_mnemonic (w : Word) :
    (decodeWord (w &&& 0xF803#16)).mnemonic = (decodeWord w).mnemonic := by
  have hop : opcodeField (w &&& 0xF803#16) = opcodeField w := by rw [and_keyMask, keyWord, opcode_encodeR]
  exact decodeWord_mnemonic_congr hop (by simp) (by simp)

/-- R69's count, over the 32 opcodes and the 4 values of bits 1:0. -/
theorem exists_row_keyWord : ∀ (op : BitVec 5) (funct : BitVec 2), ∃ row ∈ opcodeTable,
    keyWord op funct &&& row.mask = row.value ∧ (decodeWord (keyWord op funct)).mnemonic = row.mnemonic := by
  decide

/-- Every word meets the row of the instruction it decodes to. -/
theorem exists_row_of_decodeWord (w : Word) :
    ∃ row ∈ opcodeTable, row.holds w ∧ (decodeWord w).mnemonic = row.mnemonic := by
  obtain ⟨row, hrow, hkey, hname⟩ := exists_row_keyWord (opcodeField w) (w.extractLsb' 0 2)
  rw [← and_keyMask] at hkey hname
  exact ⟨row, hrow, (holds_and_keyMask hrow w).mp hkey, (decodeWord_and_keyMask_mnemonic w).symm.trans hname⟩

/-- Settles O5: the word's key has a row, and no two rows overlap. -/
theorem everyWordIsExactlyOneInstruction : Obligations.EveryWordIsExactlyOneInstruction := by
  refine ⟨fun w => ?_, fun o b0 b1 rest => ⟨_, decode_two o b0 b1 rest⟩⟩
  obtain ⟨row, hrow, hw, hname⟩ := exists_row_of_decodeWord w
  exact ⟨row, hrow, hw, hname, fun row' hrow' hw' =>
    row_eq_of_values_agree row' hrow' row hrow (values_agree_of_holds hw' hw)⟩

/-! ## SIIC's ignored bits (R77) -/

theorem decodeWord_siic {w : Word} (h : opcodeField w = 0b00010#5) : decodeWord w = .siic := by
  simp only [decodeWord, opcode_bits, h, BitVec.reduceGetLsb]

/-- Settles O6: the opcode alone makes the word SIIC, so any two such words are one instruction. -/
theorem siicOperandIsIgnored : Obligations.SiicOperandIsIgnored := by
  have hsiic (z : BitVec 11) : decodeWord (0b00010#5 ++ z) = .siic := decodeWord_siic (opcode_encodeJ _ z)
  intro x y s
  exact ⟨hsiic x, by rw [hsiic x, hsiic y]⟩

end Sys2Proof.Proofs
end

section
/-! SUPPORT. What the shared 16-bit operations answer, in the spec's exact integers and bit by bit
(30_encoding.md R67; 40_immediate_alu.md R105 to R109, 42_register_alu.md R136 to R140), and the one shape of every
instruction that only computes a register (R100, R130). -/

namespace Sys2Proof.Proofs
open Sys2Proof.Machine

/-- R100, R130: the value in `rd`, the next sequential pc, everything else as it was. -/
theorem writeBack_answers (rd : Reg) (v : Word) (s : State) :
    ∃ t, writeBack rd v s = .next t ∧ t.reg rd = v ∧ t.pc = trunc16 (s.pc.toNat + 2) ∧ Frame [rd] s t :=
  ⟨_, writeBack_eq rd v s, reg_setReg_same .., nextPc_eq s, frame_setReg_setPc ..⟩

/-! ## Exact differences, and the zero-extended immediate -/

/-- A 16-bit difference is the exact difference brought back. -/
theorem sub_eq_trunc16 {a b : Word} {z : Int} (h : b = BitVec.ofInt 16 z) : b - a = trunc16 (z - a.toNat) := by
  rw [h, trunc16, BitVec.sub_eq_add_neg, Int.sub_eq_add_neg, BitVec.ofInt_add, BitVec.ofInt_neg, BitVec.ofInt_natCast,
    BitVec.ofNat_toNat, BitVec.setWidth_eq]

theorem getLsbD_zext5 (i : BitVec 5) (k : Nat) : (zext5 i).getLsbD k = (decide (k < 5) && i.getLsbD k) := by
  rw [zext5, BitVec.getLsbD_setWidth]
  by_cases hk : k < 5
  · simp [hk, Nat.lt_trans hk (by decide : 5 < 16)]
  · simp [hk, BitVec.getLsbD_of_ge i k (by omega)]

/-! ## Rotates: the rotates of the bit-vector library -/

section Rotate
variable {v : Word} {n : Nat}

theorem rotateLeft_eq (h : n < 16) : rotateLeft v n = v.rotateLeft n := by
  rw [rotateLeft, BitVec.rotateLeft_def, Nat.mod_eq_of_lt h]
  split
  · next h0 => simp [h0, BitVec.ushiftRight_eq_zero]
  · rfl

theorem rotateRight_eq (h : n < 16) : rotateRight v n = v.rotateRight n := by
  rw [rotateRight, BitVec.rotateRight_def, Nat.mod_eq_of_lt h]
  split
  · next h0 => simp [h0]
  · rfl

/-- R105, R136: the sum of two shifts. -/
theorem toNat_rotateLeft (h : n < 16) :
    (rotateLeft v n).toNat = (v.toNat * 2 ^ n % 65536) ||| (v.toNat / 2 ^ (16 - n)) := by
  rw [rotateLeft_eq h, BitVec.toNat_rotateLeft, Nat.mod_eq_of_lt h, Nat.shiftLeft_eq, Nat.shiftRight_eq_div_pow]

/-- R107, R138: the sum of two shifts. -/
theorem toNat_rotateRight (h : n < 16) :
    (rotateRight v n).toNat = (v.toNat / 2 ^ n) ||| (v.toNat * 2 ^ (16 - n) % 65536) := by
  rw [rotateRight_eq h, BitVec.toNat_rotateRight, Nat.mod_eq_of_lt h, Nat.shiftLeft_eq, Nat.shiftRight_eq_div_pow]

theorem rotateLeft_zero : rotateLeft v 0 = v := rfl

theorem rotateRight_zero : rotateRight v 0 = v := rfl

/-- R107, R138: bit `k` of the result comes from bit `(k + n) mod 16`. -/
theorem getLsbD_rotateRight (h : n < 16) {k : Nat} (hk : k < 16) :
    (rotateRight v n).getLsbD k = v.getLsbD ((k + n) % 16) := by
  rw [rotateRight_eq h, BitVec.getLsbD_rotateRight, Nat.mod_eq_of_lt h]
  by_cases hwrap : k < 16 - n
  · rw [Nat.mod_eq_of_lt (by omega)]
    simp [hwrap, Nat.add_comm]
  · rw [Nat.mod_eq_sub_mod (by omega), Nat.mod_eq_of_lt (by omega)]
    simp [hwrap, hk, show k - (16 - n) = k + n - 16 by omega]

/-- R107: right by `n` is left by the rest of the word's width. -/
theorem rotateRight_eq_rotateLeft (h0 : 0 < n) (h : n < 16) : rotateRight v n = rotateLeft v (16 - n) := by
  rw [rotateRight, rotateLeft, if_neg (by omega), if_neg (by omega), Nat.sub_sub_self (by omega), BitVec.or_comm]

/-- R105, R136: bit `k` goes to bit `(k + n) mod 16`. -/
theorem getLsbD_rotateLeft (h : n < 16) {k : Nat} (hk : k < 16) :
    (rotateLeft v n).getLsbD ((k + n) % 16) = v.getLsbD k := by
  rcases Nat.eq_zero_or_pos n with rfl | h0
  · rw [rotateLeft_zero, Nat.add_zero, Nat.mod_eq_of_lt hk]
  · have hright : rotateRight v (16 - n) = rotateLeft v n := by
      rw [rotateRight_eq_rotateLeft (by omega) (by omega), Nat.sub_sub_self (by omega)]
    rw [← hright, getLsbD_rotateRight (by omega) (by omega)]
    congr 1
    omega

end Rotate

/-! ## Shifts -/

/-- R106, R137: the product by `2 ^ n`, brought back to 16 bits. -/
theorem toNat_shiftLeft (v : Word) (n : Nat) : (shiftLeft v n).toNat = v.toNat * 2 ^ n % 65536 := by
  rw [shiftLeft, BitVec.toNat_shiftLeft, Nat.shiftLeft_eq]

/-- R106, R137: zeros below bit `n`, and bit `k` comes from bit `k - n`. -/
theorem getLsbD_shiftLeft (v : Word) (n : Nat) {k : Nat} (hk : k < 16) :
    (shiftLeft v n).getLsbD k = (decide (n ≤ k) && v.getLsbD (k - n)) := by
  rw [shiftLeft, BitVec.getLsbD_shiftLeft, decide_eq_true hk, Bool.true_and, ← decide_not,
    decide_eq_decide.mpr Nat.not_lt]

/-- R108, R139: the floor of the signed quotient. -/
theorem shiftRightArith_eq (v : Word) (n : Nat) : shiftRightArith v n = trunc16 (Int.fdiv v.toInt (2 ^ n)) := by
  have hfloor : (shiftRightArith v n).toInt = Int.fdiv v.toInt (2 ^ n) := by
    rw [shiftRightArith, BitVec.toInt_sshiftRight, Int.shiftRight_eq_div_pow,
      Int.fdiv_eq_ediv_of_nonneg _ (by positivity)]
    norm_cast
  rw [← hfloor, trunc16, BitVec.ofInt_toInt]

/-- R108, R139: bit `k` comes from bit `k + n`, or is the sign where there is no such bit. -/
theorem getLsbD_shiftRightArith (v : Word) (n : Nat) {k : Nat} (hk : k < 16) :
    (shiftRightArith v n).getLsbD k = if k + n ≤ 15 then v.getLsbD (k + n) else v.getLsbD 15 := by
  rw [shiftRightArith, BitVec.getLsbD_sshiftRight, BitVec.msb_eq_getLsbD_last, decide_eq_false (by omega),
    Bool.not_false, Bool.true_and, Nat.add_comm n k]
  exact if_congr Nat.lt_succ_iff rfl rfl

end Sys2Proof.Proofs
end

section
/-! SUPPORT. The immediate arithmetic, logic, shifts and rotates (40_immediate_alu.md). -/

namespace Sys2Proof.Proofs
open Sys2Proof.Machine

/-- A shift amount is below the word's width (R109). -/
theorem immAmount_lt (i : BitVec 5) : immAmount i < 16 := by
  rw [immAmount_eq]
  exact Nat.mod_lt _ (by decide)

/-- Settles O9: the sum, and the difference immediate minus register, both brought back. -/
theorem addSubImmediateResults : Obligations.AddSubImmediateResults := by
  intro s rd rs i
  refine ⟨⟨rfl, ?_⟩, rfl, ?_⟩
  · obtain ⟨t, ht, hv, hpc, hframe⟩ := writeBack_answers rd (s.reg rs + sext5 i) s
    exact ⟨t, ht, hv.trans (add_eq_trunc16 rfl), hpc, hframe⟩
  · obtain ⟨t, ht, hv, hpc, hframe⟩ := writeBack_answers rd (sext5 i - s.reg rs) s
    exact ⟨t, ht, hv.trans (sub_eq_trunc16 rfl), hpc, hframe⟩

/-- Settles O10: the operation is bitwise, and the extended immediate is 0 from bit 5 up. -/
theorem orAndImmediateResults : Obligations.OrAndImmediateResults := by
  intro s rd rs i
  refine ⟨⟨rfl, ?_⟩, rfl, ?_⟩
  · obtain ⟨t, ht, hv, hpc, hframe⟩ := writeBack_answers rd (s.reg rs ||| zext5 i) s
    exact ⟨t, ht, fun k _ => by rw [hv, BitVec.getLsbD_or, getLsbD_zext5], hpc, hframe⟩
  · obtain ⟨t, ht, hv, hpc, hframe⟩ := writeBack_answers rd (s.reg rs &&& zext5 i) s
    exact ⟨t, ht, fun k _ => by rw [hv, BitVec.getLsbD_and, getLsbD_zext5], hpc, hframe⟩

/-- Settles O11: what the two rotates answer, for the amount the immediate gives. -/
theorem rotateImmediateResults : Obligations.RotateImmediateResults := by
  rintro s rd rs i n v hn rfl
  have hamount : immAmount i = n := (immAmount_eq i).trans hn.symm
  have hlt : n < 16 := hamount ▸ immAmount_lt i
  refine ⟨⟨rfl, ?_⟩, rfl, ?_⟩
  · obtain ⟨t, ht, hv, hpc, hframe⟩ := writeBack_answers rd (rotateLeft (s.reg rs) (immAmount i)) s
    rw [hamount] at hv
    refine ⟨t, ht, fun _ => ?_, fun h0 => ?_, fun k hk => ?_, hpc, hframe⟩
    · rw [hv, toNat_rotateLeft hlt]
    · rw [hv, h0, rotateLeft_zero]
    · rw [hv, getLsbD_rotateLeft hlt hk]
  · obtain ⟨t, ht, hv, hpc, hframe⟩ := writeBack_answers rd (rotateRight (s.reg rs) (immAmount i)) s
    rw [hamount] at hv
    refine ⟨t, ht, fun _ => ?_, fun h0 => ?_, fun k hk => ?_, hpc, hframe⟩
    · rw [hv, toNat_rotateRight hlt]
    · rw [hv, h0, rotateRight_zero]
    · rw [hv, getLsbD_rotateRight hlt hk]

/-- Settles O12: one shift, by the amount the immediate or `Rt` gives. -/
theorem shiftLeftResults : Obligations.ShiftLeftResults := by
  intro s rd rs rt i
  refine ⟨⟨rfl, ?_⟩, rfl, ?_⟩
  · obtain ⟨t, ht, hv, hpc, hframe⟩ := writeBack_answers rd (shiftLeft (s.reg rs) (immAmount i)) s
    rw [immAmount_eq] at hv
    exact ⟨t, ht, by rw [hv, toNat_shiftLeft], fun k hk => by rw [hv, getLsbD_shiftLeft _ _ hk], hpc, hframe⟩
  · obtain ⟨t, ht, hv, hpc, hframe⟩ := writeBack_answers rd (shiftLeft (s.reg rs) (regAmount (s.reg rt))) s
    rw [regAmount_eq] at hv
    exact ⟨t, ht, by rw [hv, toNat_shiftLeft], hpc, hframe⟩

/-- Settles O13: one shift, by the amount the immediate or `Rt` gives. -/
theorem shiftRightArithmeticResults : Obligations.ShiftRightArithmeticResults := by
  intro s rd rs rt i
  refine ⟨⟨rfl, ?_⟩, rfl, ?_⟩
  · obtain ⟨t, ht, hv, hpc, hframe⟩ := writeBack_answers rd (shiftRightArith (s.reg rs) (immAmount i)) s
    rw [immAmount_eq] at hv
    exact ⟨t, ht, by rw [hv, shiftRightArith_eq], fun k hk => by rw [hv, getLsbD_shiftRightArith _ _ hk], hpc, hframe⟩
  · obtain ⟨t, ht, hv, hpc, hframe⟩ := writeBack_answers rd (shiftRightArith (s.reg rs) (regAmount (s.reg rt))) s
    rw [regAmount_eq] at hv
    exact ⟨t, ht, by rw [hv, shiftRightArith_eq], hpc, hframe⟩

/-! ## Idioms -/

/-- R107: RORI by `n` and ROLI by `16 - n` compute the same. -/
theorem exec_rori_eq_roli (s : State) (rd rs : Reg) {n : Nat} (h1 : 1 ≤ n) (h15 : n ≤ 15) :
    exec (.rori rd rs (BitVec.ofNat 5 n)) s = exec (.roli rd rs (BitVec.ofNat 5 (16 - n))) s := by
  have hamount {m : Nat} (hm : m < 16) : immAmount (BitVec.ofNat 5 m) = m := by
    rw [immAmount_eq, BitVec.toNat_ofNat]
    omega
  change writeBack rd (rotateRight _ _) s = writeBack rd (rotateLeft _ _) s
  rw [hamount (by omega), hamount (by omega), rotateRight_eq_rotateLeft h1 (by omega)]

/-- R109: both immediates whose low 4 bits are 0 shift by nothing. -/
theorem immAmount_eq_zero {i : BitVec 5} (h : i = 0x00#5 ∨ i = 0x10#5) : immAmount i = 0 := by
  rcases h with rfl | rfl <;> rfl

/-- Settles O14. Subtracting from -1 complements because -1 is all ones; a shift by nothing writes what ADDI of 0
does. -/
theorem immediateIdioms : Obligations.ImmediateIdioms := by
  intro s rd rs
  refine ⟨?_, ?_, fun n h1 h15 => exec_rori_eq_roli s rd rs h1 h15, fun i hi => ?_⟩
  · obtain ⟨t, ht, hv, -, -⟩ := writeBack_answers rd (sext5 0x00#5 - s.reg rs) s
    exact ⟨t, ht, hv.trans (BitVec.zero_sub _)⟩
  · obtain ⟨t, ht, hv, -, -⟩ := writeBack_answers rd (sext5 0x1F#5 - s.reg rs) s
    exact ⟨t, ht, hv.trans (BitVec.allOnes_sub_eq_not _)⟩
  · obtain ⟨t, ht, hv, -, -⟩ := writeBack_answers rd (s.reg rs) s
    have h0 := immAmount_eq_zero hi
    refine ⟨t, ?_, ?_, ?_, ?_, ?_, hv⟩ <;> rw [← ht]
    · change writeBack rd (shiftLeft _ _) s = _
      rw [h0, shiftLeft, BitVec.shiftLeft_zero]
    · change writeBack rd (shiftRightArith _ _) s = _
      rw [h0, shiftRightArith, BitVec.sshiftRight_zero]
    · change writeBack rd (rotateLeft _ _) s = _
      rw [h0, rotateLeft_zero]
    · change writeBack rd (rotateRight _ _) s = _
      rw [h0, rotateRight_zero]
    · change writeBack rd (s.reg rs + 0#16) s = _
      rw [BitVec.add_zero]

end Sys2Proof.Proofs
end

section
/-! SUPPORT. Encoding what a word decodes to, and from it the don't-care bits (30_encoding.md R70) and bit 4 of a
shift immediate (40_immediate_alu.md R109). -/

namespace Sys2Proof.Proofs
open Sys2Proof.Machine

/-! ## Encoding what a word decodes to, format by format (R61 to R66) -/

section Formats
variable {w : Word} {op : BitVec 5} {funct : BitVec 2}

theorem encodeBare_of_opcode (h : opcodeField w = op) : encodeBare op = w &&& ~~~0x07FF#16 := by
  have hmask : ~~~0x07FF#16 = BitVec.allOnes 5 ++ 0#11 := rfl
  conv_rhs => rw [← encodeJ_fields w, h, hmask, encodeJ, BitVec.and_append, BitVec.and_allOnes, BitVec.and_zero]
  rfl

theorem encodeJ_of_opcode (h : opcodeField w = op) : encodeJ op (dispField w) = w &&& ~~~0x0000#16 := by
  rw [← h, encodeJ_fields, BitVec.not_zero, BitVec.and_allOnes]

theorem encodeI1_of_opcode (h : opcodeField w = op) :
    encodeI1 op (rsField w) (midField w) (imm5Field w) = w &&& ~~~0x0000#16 := by
  rw [← h, encodeI1_fields, BitVec.not_zero, BitVec.and_allOnes]

theorem encodeI2_of_opcode (h : opcodeField w = op) :
    encodeI2 op (rsField w) (imm8Field w) = w &&& ~~~0x0000#16 := by
  rw [← h, encodeI2_fields, BitVec.not_zero, BitVec.and_allOnes]

theorem encodeR_of_opcode (h : opcodeField w = op) (hfunct : w.extractLsb' 0 2 = funct) :
    encodeR op (rsField w) (midField w).bits (rdFieldR w) funct = w &&& ~~~0x0000#16 := by
  rw [← h, ← hfunct, midField, bits_ofBits, encodeR_fields, BitVec.not_zero, BitVec.and_allOnes]

/-- A mask over the `Rt` and `funct` fields of the R-format (R65). -/
theorem and_maskR (w : Word) (m : BitVec 3) (f : BitVec 2) :
    w &&& (BitVec.allOnes 5 ++ BitVec.allOnes 3 ++ m ++ BitVec.allOnes 3 ++ f) =
      encodeR (opcodeField w) (rsField w) (w.extractLsb' 5 3 &&& m) (rdFieldR w) (w.extractLsb' 0 2 &&& f) := by
  conv_lhs => rw [← encodeR_fields w, encodeR, BitVec.and_append, BitVec.and_append, BitVec.and_append,
    BitVec.and_append]
  simp only [BitVec.and_allOnes, encodeR]

/-- SEQ, SLT, SLE, SCO: the `funct` field cleared. -/
theorem encodeR_clearFunct (h : opcodeField w = op) :
    encodeR op (rsField w) (midField w).bits (rdFieldR w) 0b00#2 = w &&& ~~~0x0003#16 := by
  have hmask := and_maskR w (BitVec.allOnes 3) 0b00#2
  rw [BitVec.and_allOnes, BitVec.and_zero] at hmask
  rw [← h, midField, bits_ofBits]
  exact hmask.symm

/-- BTR: the `Rt` and `funct` fields cleared. -/
theorem encodeR_clearMidFunct (h : opcodeField w = op) :
    encodeR op (rsField w) 0b000#3 (rdFieldR w) 0b00#2 = w &&& ~~~0x00E3#16 := by
  have hmask := and_maskR w 0b000#3 0b00#2
  rw [BitVec.and_zero, BitVec.and_zero] at hmask
  rw [← h]
  exact hmask.symm

theorem funct_eq (h1 : w.getLsbD 1 = funct.getLsbD 1) (h0 : w.getLsbD 0 = funct.getLsbD 0) :
    w.extractLsb' 0 2 = funct := by
  refine field_ext fun k hk => ?_
  match k, hk with
  | 0, _ => exact h0
  | 1, _ => exact h1

theorem encode_of_decodeShift {i : Instr} (hop : opcodeField w = 0b11010#5) (h : decodeShift w = i) :
    encode i = w &&& ~~~dontCareBits i := by
  unfold decodeShift at h
  split at h <;> subst h <;> exact encodeR_of_opcode hop (funct_eq ‹_› ‹_›)

theorem encode_of_decodeArith {i : Instr} (hop : opcodeField w = 0b11011#5) (h : decodeArith w = i) :
    encode i = w &&& ~~~dontCareBits i := by
  unfold decodeArith at h
  split at h <;> subst h <;> exact encodeR_of_opcode hop (funct_eq ‹_› ‹_›)

theorem opcode_eq (h4 : w.getLsbD 15 = op.getLsbD 4) (h3 : w.getLsbD 14 = op.getLsbD 3)
    (h2 : w.getLsbD 13 = op.getLsbD 2) (h1 : w.getLsbD 12 = op.getLsbD 1) (h0 : w.getLsbD 11 = op.getLsbD 0) :
    opcodeField w = op := (opcodeField_eq_iff w op).mpr ⟨h4, h3, h2, h1, h0⟩

/-- Encoding what a word decodes to gives the word back with its don't-care bits cleared (R68, R70): the decoder's
line fixes the opcode, and the rest of the word is the fields that the line reads. -/
theorem encode_of_decodeWord {i : Instr} (h : decodeWord w = i) : encode i = w &&& ~~~dontCareBits i := by
  unfold decodeWord at h
  split at h
  case h_27 => exact encode_of_decodeShift (opcode_eq ‹_› ‹_› ‹_› ‹_› ‹_›) h
  case h_28 => exact encode_of_decodeArith (opcode_eq ‹_› ‹_› ‹_› ‹_› ‹_›) h
  all_goals subst h
  case h_1 | h_2 | h_3 | h_4 | h_15 => exact encodeBare_of_opcode (opcode_eq ‹_› ‹_› ‹_› ‹_› ‹_›)
  case h_5 | h_7 => exact encodeJ_of_opcode (opcode_eq ‹_› ‹_› ‹_› ‹_› ‹_›)
  case h_6 | h_8 | h_13 | h_14 | h_16 | h_19 | h_25 => exact encodeI2_of_opcode (opcode_eq ‹_› ‹_› ‹_› ‹_› ‹_›)
  case h_26 => exact encodeR_clearMidFunct (opcode_eq ‹_› ‹_› ‹_› ‹_› ‹_›)
  case h_29 | h_30 | h_31 | h_32 => exact encodeR_clearFunct (opcode_eq ‹_› ‹_› ‹_› ‹_› ‹_›)
  all_goals exact encodeI1_of_opcode (opcode_eq ‹_› ‹_› ‹_› ‹_› ‹_›)

end Formats

/-! ## The don't-care bits (R70) -/

theorem encode_decodeWord (w : Word) : encode (decodeWord w) = w &&& ~~~dontCareBits (decodeWord w) :=
  encode_of_decodeWord rfl

/-- The encoder emits 0 for them: what it emits is read back, and encoding that again clears them. -/
theorem encode_and_dontCareBits (i : Instr) : encode i &&& dontCareBits i = 0#16 := by
  have h := encode_decodeWord (encode i)
  rw [decodeWord_encode] at h
  rw [h, BitVec.and_assoc, BitVec.and_comm (~~~_), BitVec.and_not_self]
  exact BitVec.and_zero

/-- Words with one opcode have the same don't-care bits. -/
theorem dontCareBits_congr {v w : Word} (hop : opcodeField v = opcodeField w) :
    dontCareBits (decodeWord v) = dontCareBits (decodeWord w) := by
  have hshift (u : Word) : dontCareBits (decodeShift u) = 0x0000#16 := by unfold decodeShift; split <;> rfl
  have harith (u : Word) : dontCareBits (decodeArith u) = 0x0000#16 := by unfold decodeArith; split <;> rfl
  simp only [decodeWord, opcode_bits, hop]
  split
  case h_27 => rw [hshift, hshift]
  case h_28 => rw [harith, harith]
  all_goals rfl

/-- No opcode bit is a don't-care bit. -/
theorem opcodeField_dontCareBits (i : Instr) : opcodeField (dontCareBits i) = 0b00000#5 := by
  unfold dontCareBits
  split <;> decide

/-- Bits changed under a mask are cleared with the mask. -/
theorem xor_masked_and_not (w x m : Word) : (w ^^^ (x &&& m)) &&& ~~~m = w &&& ~~~m := by
  ext k
  cases hm : m[k] <;> simp [hm]

/-- A word and the word with don't-care bits changed are one instruction: both decode as what is left of them with
those bits cleared, which is the same. -/
theorem decodeWord_xor_dontCareBits (w x : Word) :
    decodeWord (w ^^^ (x &&& dontCareBits (decodeWord w))) = decodeWord w := by
  have hop : opcodeField (w ^^^ (x &&& dontCareBits (decodeWord w))) = opcodeField w := by
    have hzero := opcodeField_dontCareBits (decodeWord w)
    rw [opcodeField] at hzero ⊢
    rw [BitVec.extractLsb'_xor, BitVec.extractLsb'_and, hzero, BitVec.and_zero, BitVec.xor_zero, opcodeField]
  have hv := encode_decodeWord (w ^^^ (x &&& dontCareBits (decodeWord w)))
  rw [dontCareBits_congr hop] at hv
  rw [← decodeWord_encode (decodeWord (w ^^^ _)), hv, xor_masked_and_not, ← encode_decodeWord, decodeWord_encode]

/-! ## Bit 4 of a shift immediate (R109) -/

theorem encodeI1_flipBit4 (op : BitVec 5) (rs rd : Reg) (i : BitVec 5) :
    encodeI1 op rs rd i ^^^ 0x0010#16 = encodeI1 op rs rd (i ^^^ 0x10#5) := by
  have hbit : 0x0010#16 = 0#5 ++ 0#3 ++ 0#3 ++ 0x10#5 := rfl
  rw [hbit, encodeI1, BitVec.xor_append, BitVec.xor_append, BitVec.xor_append]
  simp only [BitVec.xor_zero, encodeI1]

theorem immAmount_flipBit4 : ∀ i : BitVec 5, immAmount (i ^^^ 0x10#5) = immAmount i := by decide

/-- Bit 4 of the word is bit 4 of the immediate, for a row `f` of I-format 1. -/
theorem decodeWord_flipBit4 {op : BitVec 5} {rs rd : Reg} {f : BitVec 5 → Instr}
    (hf : ∀ i, encode (f i) = encodeI1 op rs rd i) (hx : ∀ i, dontCareBits (f i) = 0x0000#16) {w : Word} {i : BitVec 5}
    (h : decodeWord w = f i) : decodeWord (w ^^^ 0x0010#16) = f (i ^^^ 0x10#5) := by
  have hw : encodeI1 op rs rd i = w := by
    rw [← hf, encode_of_decodeWord h, hx, BitVec.not_zero, BitVec.and_allOnes]
  rw [← hw, encodeI1_flipBit4, ← hf, decodeWord_encode]

/-- The four instructions that take their amount from an immediate do the same for both values of its bit 4. -/
theorem exec_flipBit4 {w : Word} (hw : (decodeWord w).mnemonic ∈ ["ROLI", "SLLI", "RORI", "SRAI"]) (s : State) :
    exec (decodeWord (w ^^^ 0x0010#16)) s = exec (decodeWord w) s := by
  cases h : decodeWord w with
  | roli rd rs i =>
    rw [decodeWord_flipBit4 (f := .roli rd rs) (fun _ => rfl) (fun _ => rfl) h]
    exact congrArg (fun n => writeBack rd (rotateLeft (s.reg rs) n) s) (immAmount_flipBit4 i)
  | slli rd rs i =>
    rw [decodeWord_flipBit4 (f := .slli rd rs) (fun _ => rfl) (fun _ => rfl) h]
    exact congrArg (fun n => writeBack rd (shiftLeft (s.reg rs) n) s) (immAmount_flipBit4 i)
  | rori rd rs i =>
    rw [decodeWord_flipBit4 (f := .rori rd rs) (fun _ => rfl) (fun _ => rfl) h]
    exact congrArg (fun n => writeBack rd (rotateRight (s.reg rs) n) s) (immAmount_flipBit4 i)
  | srai rd rs i =>
    rw [decodeWord_flipBit4 (f := .srai rd rs) (fun _ => rfl) (fun _ => rfl) h]
    exact congrArg (fun n => writeBack rd (shiftRightArith (s.reg rs) n) s) (immAmount_flipBit4 i)
  | _ =>
    rw [h] at hw
    simp [Instr.mnemonic] at hw

/-- Settles O4, from the round trip of word, instruction and word. -/
theorem dontCareBitsAreIgnored : Obligations.DontCareBitsAreIgnored :=
  ⟨decodeWord_xor_dontCareBits, fun _ s hw => exec_flipBit4 hw s, encode_and_dontCareBits⟩

end Sys2Proof.Proofs
end

section
/-! SUPPORT. LD, ST and STU at every effective address, and the push and pop made of them (41_load_store.md). -/

namespace Sys2Proof.Proofs
open Sys2Proof.Machine

/-! ## LD (R122) -/

/-- A fault of the data access is the fault of the LD that makes it. -/
theorem exec_ld_of_memRead_fault {s : State} {rd rs : Reg} {i : BitVec 5} {e : Fault}
    (h : memRead s (effectiveAddress s rs i) = .fault e) : exec (.ld rd rs i) s = .fault e := by
  change execLd rd rs i s = _
  rw [execLd, h, andThen_fault]

/-- Settles O26: LD does what its data access does, and what it reads goes to `Rd` as every computed value does. -/
theorem loadResult : Obligations.LoadResult := by
  intro s rd rs i ea hea
  obtain rfl : ea = effectiveAddress s rs i := hea.trans (effectiveAddress_eq s rs i).symm
  obtain ⟨hodd, hnone, hsome⟩ := memReadFollowsItsRule s (effectiveAddress s rs i)
  refine ⟨rfl, fun ha => exec_ld_of_memRead_fault (hodd ha),
    fun ha hn => exec_ld_of_memRead_fault (hnone ha hn), fun lo hi ha hlo hhi => ?_⟩
  obtain ⟨v, hread, hbig, hlittle⟩ := hsome lo hi ha hlo hhi
  obtain ⟨t, ht, rfl, hpc, hframe⟩ := writeBack_answers rd v s
  refine ⟨t, ?_, fun ho => ?_, fun ho => ?_, hpc, hframe⟩
  · exact exec_ld_eq_next.mpr ⟨_, hread, Host.Outcome.next.inj ht⟩
  · rw [hbig ho, toNat_byte_append]
  · rw [hlittle ho, toNat_byte_append]

/-! ## The bytes of a stored word (R45, R48) -/

theorem toNat_upperByte (v : Word) : (v.extractLsb' 8 8).toNat = v.toNat / 256 := by
  have hv := v.isLt
  rw [BitVec.extractLsb'_toNat, Nat.shiftRight_eq_div_pow]
  omega

theorem toNat_lowerByte (v : Word) : (v.extractLsb' 0 8).toNat = v.toNat % 256 := by
  rw [BitVec.extractLsb'_toNat, Nat.shiftRight_zero]

/-- Both bytes of a store join `Stored`. -/
theorem storeWord_has_both (s : State) (a v : Word) :
    AddrSet.has (s.storeWord a v).stored a.toNat = true ∧
      AddrSet.has (s.storeWord a v).stored (a.toNat + 1) = true := by
  simp

/-! ## ST and STU (R121, R123) -/

/-- Settles O27: ST is the store of the word and the next sequential pc. -/
theorem storeResult : Obligations.StoreResult := by
  intro s rd rs i ea hea
  obtain rfl : ea = effectiveAddress s rs i := hea.trans (effectiveAddress_eq s rs i).symm
  refine ⟨rfl, fun ha => ?_⟩
  have hst : exec (.st rd rs i) s = _ := execSt_even ((isEven_iff _).mpr ha)
  obtain ⟨hlow, hhigh⟩ := storeWord_has_both s (effectiveAddress s rs i) (s.reg rd)
  refine ⟨_, hst, fun ho => ?_, fun ho => ?_, hlow, hhigh, exec_pc hst,
    storeFrame_of_storeWord hst rfl rfl ⟨rfl, rfl, rfl⟩⟩
  · rw [setPc_mem, storeWord_mem, ho, get_setWord_low, get_setWord_high]
    exact ⟨congrArg some (toNat_upperByte _), congrArg some (toNat_lowerByte _)⟩
  · rw [setPc_mem, storeWord_mem, ho, get_setWord_low, get_setWord_high]
    exact ⟨congrArg some (toNat_lowerByte _), congrArg some (toNat_upperByte _)⟩

/-- Settles O28: STU makes ST's store, of the old `Rd`, and then writes the address to `Rs`. -/
theorem storeWithUpdateResult : Obligations.StoreWithUpdateResult := by
  intro s rd rs i ea hea
  obtain rfl : ea = effectiveAddress s rs i := hea.trans (effectiveAddress_eq s rs i).symm
  refine ⟨rfl, fun ha => ?_⟩
  have heven : isOdd (effectiveAddress s rs i) = false := (isEven_iff _).mpr ha
  have hstu : exec (.stu rd rs i) s = _ := execStu_even heven
  obtain ⟨hlow, hhigh⟩ := storeWord_has_both s (effectiveAddress s rs i) (s.reg rd)
  exact ⟨_, hstu, reg_setReg_same .., storeWord_word_same ..,
    ⟨_, execSt_even heven, rfl, rfl⟩, hlow, hhigh, exec_pc hstu,
    storeFrame_of_storeWord hstu rfl rfl ⟨rfl, rfl, rfl⟩⟩

/-! ## Push and pop (R124) -/

/-- Settles O33: the pop loads the word the push stored, since STU left its address in the base, and the two offsets
cancel. -/
theorem pushThenPopRestores : Obligations.PushThenPopRestores := by
  intro s rd rs rd' heven hne
  have hea : isOdd (effectiveAddress s rs 0x1E#5) = false := by
    rw [effectiveAddress, isOdd_add, heven]
    rfl
  obtain ⟨-, hstu⟩ := storeWithUpdateResult s rd rs 0x1E#5 _ (effectiveAddress_eq s rs 0x1E#5)
  obtain ⟨t, ht, hbase, hword, -⟩ := hstu ((isEven_iff _).mp hea)
  have htop : effectiveAddress t rs 0x00#5 = effectiveAddress s rs 0x1E#5 := by
    rw [← hbase]
    exact BitVec.add_zero _
  have hread : memRead t (effectiveAddress t rs 0x00#5) = .next (s.reg rd) := by
    rw [htop]
    exact memRead_eq_next.mpr ⟨hea, hword⟩
  obtain ⟨u, hu, hload⟩ := exec_ld_of_memRead (rd := rd') hread
  have hkept : u.reg rs = t.reg rs := exec_regs_frame hu rs (List.mem_singleton.not.mpr hne.symm)
  obtain ⟨v, hv, hsum, -, hregs, -⟩ := writeBack_answers rs (u.reg rs + sext5 0x02#5) u
  refine ⟨t, u, v, ht, hu, hv, hbase.trans (effectiveAddress_eq s rs 0x1E#5), ?_, ?_⟩
  · rw [hregs rd' (List.mem_singleton.not.mpr hne), hload]
  · calc v.reg rs = s.reg rs + sext5 0x1E#5 + sext5 0x02#5 := by rw [hsum, hkept, hbase, effectiveAddress]
      _ = s.reg rs + 0#16 := BitVec.add_assoc ..
      _ = s.reg rs := BitVec.add_zero _

end Sys2Proof.Proofs
end

section
/-! SUPPORT. The register arithmetic, logic, shifts, rotates, bit-reverse and set instructions (42_register_alu.md),
and a set instruction followed by a branch (43_branches.md R162). -/

namespace Sys2Proof.Proofs
open Sys2Proof.Machine

/-! ## ADD, SUB, OR and AND (R132 to R135) -/

theorem eq_ofInt_toNat (v : Word) : v = BitVec.ofInt 16 v.toNat := by
  rw [BitVec.ofInt_natCast, BitVec.ofNat_toNat, BitVec.setWidth_eq]

/-- Settles O15: the sum, and the difference `Rt - Rs`, both brought back. -/
theorem addSubRegisterResults : Obligations.AddSubRegisterResults := by
  intro s rd rs rt
  refine ⟨⟨rfl, ?_⟩, rfl, ?_⟩
  · obtain ⟨t, ht, hv, hpc, hframe⟩ := writeBack_answers rd (s.reg rs + s.reg rt) s
    exact ⟨t, ht, hv.trans (add_eq_trunc16 (eq_ofInt_toNat _)), hpc, hframe⟩
  · obtain ⟨t, ht, hv, hpc, hframe⟩ := writeBack_answers rd (s.reg rt - s.reg rs) s
    exact ⟨t, ht, hv.trans (sub_eq_trunc16 (eq_ofInt_toNat _)), hpc, hframe⟩

/-- Settles O16: the operation is bitwise. -/
theorem orAndRegisterResults : Obligations.OrAndRegisterResults := by
  intro s rd rs rt
  refine ⟨⟨rfl, ?_⟩, rfl, ?_⟩
  · obtain ⟨t, ht, hv, hpc, hframe⟩ := writeBack_answers rd (s.reg rs ||| s.reg rt) s
    exact ⟨t, ht, fun k _ => by rw [hv, BitVec.getLsbD_or], hpc, hframe⟩
  · obtain ⟨t, ht, hv, hpc, hframe⟩ := writeBack_answers rd (s.reg rs &&& s.reg rt) s
    exact ⟨t, ht, fun k _ => by rw [hv, BitVec.getLsbD_and], hpc, hframe⟩

/-! ## ROL, SLL, ROR and SRA (R136 to R140) -/

/-- Settles O18: a register shift and its twin differ only in where the amount comes from. -/
theorem registerShiftIsItsImmediateTwin : Obligations.RegisterShiftIsItsImmediateTwin := by
  intro s rd rs rt i h
  have hamount : regAmount (s.reg rt) = immAmount i := by rw [regAmount_eq, immAmount_eq, h]
  exact ⟨congrArg (fun n => writeBack rd (rotateLeft (s.reg rs) n) s) hamount,
    congrArg (fun n => writeBack rd (shiftLeft (s.reg rs) n) s) hamount,
    congrArg (fun n => writeBack rd (rotateRight (s.reg rs) n) s) hamount,
    congrArg (fun n => writeBack rd (shiftRightArith (s.reg rs) n) s) hamount⟩

/-- Settles O17: ROL and ROR do what ROLI and RORI do with the immediate `n`, whose results are known. -/
theorem rotateRegisterResults : Obligations.RotateRegisterResults := by
  intro s rd rs rt n v hn hv
  have himm : n = (BitVec.ofNat 5 n).toNat % 16 := by
    rw [BitVec.toNat_ofNat]
    omega
  obtain ⟨hrol, -, hror, -⟩ := registerShiftIsItsImmediateTwin s rd rs rt (BitVec.ofNat 5 n) (himm.symm.trans hn)
  obtain ⟨⟨-, hleft⟩, -, hright⟩ := rotateImmediateResults s rd rs (BitVec.ofNat 5 n) n v himm hv
  rw [hrol, hror]
  exact ⟨⟨rfl, hleft⟩, rfl, hright⟩

/-! ## BTR (R131) -/

/-- What the encoder emits is read back whatever the don't-care bits are changed to (R70). -/
theorem decodeWord_encode_xor_dontCareBits (i : Instr) (x : Word) :
    decodeWord (encode i ^^^ (x &&& dontCareBits i)) = i := by
  have h := decodeWord_xor_dontCareBits (encode i) x
  rwa [decodeWord_encode] at h

theorem getLsbD_bitReverse (v : Word) {k : Nat} (hk : k < 16) : (bitReverse v).getLsbD k = v.getLsbD (15 - k) := by
  rw [bitReverse, BitVec.getLsbD_reverse, BitVec.getMsbD, decide_eq_true hk, Bool.true_and]

theorem bitReverse_bitReverse (v : Word) : bitReverse (bitReverse v) = v := BitVec.reverse_reverse_eq

/-- Settles O19: the reversed value by its bits, and the second BTR undoes the first. -/
theorem bitReverseResult : Obligations.BitReverseResult := by
  intro s rd rs
  obtain ⟨t, ht, hv, hpc, hframe⟩ := writeBack_answers rd (bitReverse (s.reg rs)) s
  obtain ⟨u, hu, hback, -, -⟩ := writeBack_answers rd (bitReverse (t.reg rd)) t
  refine ⟨rfl, decodeWord_encode_xor_dontCareBits (.btr rd rs), t, ht, fun k hk => ?_, hpc, hframe, u, hu, ?_⟩
  · rw [hv, getLsbD_bitReverse _ hk]
  · rw [hback, hv, bitReverse_bitReverse]

/-! ## SEQ, SLT, SLE and SCO (R141 to R145) -/

/-- R141 for a condition `p` that the computed bit decides. -/
theorem conditionWord_eq {c : Bool} {p : Prop} [Decidable p] (hc : c = true ↔ p) :
    conditionWord c = if p then 0x0001#16 else 0x0000#16 :=
  if_congr hc rfl rfl

/-- R130, R141: what a set instruction answers, for a condition `p` that its bit decides. -/
theorem setCondition_answers {c : Bool} {p : Prop} [Decidable p] (hc : c = true ↔ p) (rd : Reg) (s : State) :
    ∃ t, writeBack rd (conditionWord c) s = .next t ∧ t.reg rd = (if p then 0x0001#16 else 0x0000#16) ∧
      t.pc = trunc16 (s.pc.toNat + 2) ∧ Frame [rd] s t := by
  obtain ⟨t, ht, hv, hpc, hframe⟩ := writeBack_answers rd (conditionWord c) s
  exact ⟨t, ht, hv.trans (conditionWord_eq hc), hpc, hframe⟩

/-- Settles O20: one shape, for the four conditions. -/
theorem setInstructionResults : Obligations.SetInstructionResults := by
  intro s rd rs rt
  exact ⟨⟨rfl, decodeWord_encode_xor_dontCareBits (.seq rd rs rt), setCondition_answers beq_iff_eq rd s⟩,
    ⟨rfl, decodeWord_encode_xor_dontCareBits (.slt rd rs rt), setCondition_answers decide_eq_true_iff rd s⟩,
    ⟨rfl, decodeWord_encode_xor_dontCareBits (.sle rd rs rt), setCondition_answers decide_eq_true_iff rd s⟩,
    rfl, decodeWord_encode_xor_dontCareBits (.sco rd rs rt), setCondition_answers decide_eq_true_iff rd s⟩

/-- R132, R145: the 16-bit sum is short of the exact one by the carry out of bit 15. -/
theorem carry_add_toNat (a b : Word) :
    (if 65536 ≤ a.toNat + b.toNat then 0x0001#16 else 0x0000#16).toNat * 65536 + (a + b).toNat =
      a.toNat + b.toNat := by
  have ha := a.isLt
  have hb := b.isLt
  rw [BitVec.toNat_add]
  split
  · change 1 * 65536 + _ = _
    omega
  · change 0 * 65536 + _ = _
    omega

/-- Settles O21: SCO answers the carry that ADD loses. -/
theorem addAndScoGiveTheExactSum : Obligations.AddAndScoGiveTheExactSum := by
  intro s rd rs rt
  obtain ⟨t, ht, hsum, -, -⟩ := writeBack_answers rd (s.reg rs + s.reg rt) s
  obtain ⟨-, -, -, -, -, u, hu, hcarry, -, -⟩ := setInstructionResults s rd rs rt
  exact ⟨t, u, ht, hu, by rw [hcarry, hsum, carry_add_toNat]⟩

/-! ## SLT and the sign of a difference -/

theorem toInt_bounds (v : Word) : -32768 ≤ v.toInt ∧ v.toInt ≤ 32767 := by
  have h1 := BitVec.le_toInt v
  have h2 := BitVec.toInt_lt (x := v)
  omega

/-- Where the exact difference fits 16 bits it is the value of the 16-bit difference. -/
theorem toInt_sub_of_fits {a b : Word} (h : -32768 ≤ a.toInt - b.toInt ∧ a.toInt - b.toInt ≤ 32767) :
    (a - b).toInt = a.toInt - b.toInt := by
  rw [BitVec.toInt_sub]
  exact Int.bmod_eq_of_le (by omega) (by omega)

/-- Where it does not fit, the 16-bit difference is off by 65536 and has the other sign. -/
theorem toInt_sub_neg_iff_of_not_fits {a b : Word}
    (h : ¬(-32768 ≤ a.toInt - b.toInt ∧ a.toInt - b.toInt ≤ 32767)) :
    (a - b).toInt < 0 ↔ ¬ a.toInt - b.toInt < 0 := by
  have ha := toInt_bounds a
  have hb := toInt_bounds b
  rw [BitVec.toInt_sub, Int.bmod_def]
  split <;> omega

/-- Settles O22: the sign of the 16-bit difference is that of the exact one, or its opposite. -/
theorem setLessThanIsSignUnlessOverflow : Obligations.SetLessThanIsSignUnlessOverflow := by
  intro s rd rs rt
  obtain ⟨-, ⟨-, -, t, ht, hless, -, -⟩, -⟩ := setInstructionResults s rd rs rt
  obtain ⟨u, hu, hdiff, -, -⟩ := writeBack_answers rd (s.reg rs - s.reg rt) s
  have hset : t.reg rd = 0x0001#16 ↔ (s.reg rs).toInt - (s.reg rt).toInt < 0 := by
    rw [hless, Ne.ite_eq_left_iff (by decide), sub_neg]
  have hsign : (u.reg rd).getLsbD 15 = true ↔ (s.reg rs - s.reg rt).toInt < 0 := by
    rw [hdiff]
    exact isNegative_iff _
  refine ⟨t, u, ht, hu, fun hfits => ?_, fun hover => ?_⟩
  · rw [hset, hsign, toInt_sub_of_fits hfits]
  · rw [hset, ← Bool.not_eq_true, hsign, toInt_sub_neg_iff_of_not_fits hover, not_not]

/-! ## SLT then BNEZ (R162, R235) -/

/-- A number brought back to 16 bits and added to is the sum brought back. -/
theorem trunc16_toNat_add (a b : Int) : trunc16 ((trunc16 a).toNat + b) = trunc16 (a + b) := by
  rw [← add_eq_trunc16 (rfl : BitVec.ofInt 16 b = _), trunc16, trunc16, BitVec.ofInt_add]

/-- Settles O36: the branch tests what SLT wrote, two bytes further on. -/
theorem setThenBranchFollowsTheComparison : Obligations.SetThenBranchFollowsTheComparison := by
  intro s rd rs rt i
  obtain ⟨-, ⟨-, -, t, ht, hless, hpc, -⟩, -⟩ := setInstructionResults s rd rs rt
  obtain ⟨u, hu⟩ := exec_answers (i := .bnez rd i) (by simp [Instr.mnemonic]) t
  have htest : t.reg rd ≠ 0 ↔ (s.reg rs).toInt < (s.reg rt).toInt := by
    rw [hless]
    exact Ne.ite_ne_right_iff (by decide)
  have htaken : trunc16 (t.pc.toNat + 2 + i.toInt) = trunc16 (s.pc.toNat + 4 + i.toInt) := by
    rw [hpc, Int.add_assoc, trunc16_toNat_add]
    congr 1
    omega
  have hnext : trunc16 (t.pc.toNat + 2) = trunc16 (s.pc.toNat + 4) := by
    rw [hpc, trunc16_toNat_add, Int.add_assoc]
    rfl
  refine ⟨t, u, ht, hu, ?_⟩
  rw [exec_pc hu, pcAfter, htaken, hnext]
  exact if_congr htest rfl rfl

end Sys2Proof.Proofs
end

section
/-! SUPPORT. The conditional branches BEQZ, BNEZ and BLTZ (43_branches.md). -/

namespace Sys2Proof.Proofs
open Sys2Proof.Machine

theorem isZero_iff_toNat (v : Word) : isZero v = true ↔ v.toNat = 0 :=
  (isZero_iff v).trans BitVec.toNat_inj.symm

theorem not_isZero_iff_toNat (v : Word) : (!isZero v) = true ↔ v.toNat ≠ 0 := by
  rw [Bool.not_eq_true', ← Bool.not_eq_true, isZero_iff_toNat]

/-- R160: what a branch answers, for a condition `p` that the tested bit decides and a condition `q` that rules `p`
out. -/
theorem branchIf_answers {c : Bool} {p q : Prop} [Decidable p] (hc : c = true ↔ p) (hq : q → ¬p) (i : BitVec 8)
    (s : State) :
    ∃ t, branchIf c i s = .next t ∧ Frame [] s t ∧ (p → t.pc = trunc16 (s.pc.toNat + 2 + i.toInt)) ∧
      (q → t.pc = trunc16 (s.pc.toNat + 2)) := by
  refine ⟨_, branchIf_eq c i s, frame_setPc .., fun h => ?_, fun h => ?_⟩
  · rw [setPc_pc, branch_pc_eq hc, if_pos h]
  · rw [setPc_pc, branch_pc_eq hc, if_neg (hq h)]

/-- Settles O35: one shape, for the three conditions. -/
theorem branchResults : Obligations.BranchResults := by
  intro s rs i
  exact ⟨⟨rfl, branchIf_answers (isZero_iff_toNat _) id i s⟩,
    ⟨rfl, branchIf_answers (not_isZero_iff_toNat _) not_not_intro i s⟩,
    rfl, branchIf_answers (isNegative_iff _) not_lt.mpr i s⟩

end Sys2Proof.Proofs
end

section
/-! SUPPORT. LBI and SLBI, and the pair that loads any constant (44_load_immediate.md). -/

namespace Sys2Proof.Proofs
open Sys2Proof.Machine

/-! ## LBI (R170) -/

/-- R170: the bits above the immediate are copies of its bit 7. -/
theorem getLsbD_sext8 (i : BitVec 8) {k : Nat} (hk : k < 16) :
    (sext8 i).getLsbD k = if k < 8 then i.getLsbD k else i.getLsbD 7 := by
  rw [sext8, BitVec.getLsbD_signExtend, decide_eq_true hk, Bool.true_and, BitVec.msb_eq_getLsbD_last]

/-- Settles O23: LBI is the write of the extended immediate. -/
theorem loadByteImmediateResult : Obligations.LoadByteImmediateResult := by
  intro s rs i
  obtain ⟨t, ht, hv, hpc, hframe⟩ := writeBack_answers rs (sext8 i) s
  exact ⟨rfl, t, ht, hv, fun k hk => by rw [hv, getLsbD_sext8 i hk], hpc, hframe⟩

/-! ## SLBI (R171) -/

/-- R171: the appended byte is the shifted word with the immediate in its cleared low byte. -/
theorem toNat_shiftInByte (v : Word) (i : BitVec 8) :
    (shiftInByte v i).toNat = (v.toNat * 256 % 65536) ||| i.toNat := by
  rw [shiftInByte, BitVec.toNat_append, toNat_lowerByte, Nat.shiftLeft_eq]
  exact congrArg (· ||| i.toNat) (Nat.mul_mod_mul_right 256 v.toNat 256).symm

/-- R171: the immediate below bit 8, the old low byte above. -/
theorem getLsbD_shiftInByte (v : Word) (i : BitVec 8) {k : Nat} (hk : k < 16) :
    (shiftInByte v i).getLsbD k = if k < 8 then i.getLsbD k else v.getLsbD (k - 8) := by
  have hbyte : k - 8 < 8 := by omega
  rw [shiftInByte, BitVec.getLsbD_append, BitVec.getLsbD_extractLsb', decide_eq_true hbyte, Bool.true_and, Nat.zero_add]

/-- Settles O24: SLBI is the write of the old low byte and the immediate. -/
theorem shiftInByteResult : Obligations.ShiftInByteResult := by
  intro s rs i
  obtain ⟨t, ht, hv, hpc, hframe⟩ := writeBack_answers rs (shiftInByte (s.reg rs) i) s
  exact ⟨rfl, t, ht, by rw [hv, toNat_shiftInByte], fun k hk => by rw [hv, getLsbD_shiftInByte _ i hk], hpc, hframe⟩

/-! ## LBI then SLBI (R172) -/

/-- The low byte of an extended immediate is the immediate, so the sign that LBI spreads above it is what SLBI
drops. -/
theorem shiftInByte_sext8 (hh ll : BitVec 8) : shiftInByte (sext8 hh) ll = hh ++ ll := by
  have hlow : (sext8 hh).extractLsb' 0 8 = hh := by
    refine BitVec.eq_of_getLsbD_eq fun k hk => ?_
    rw [BitVec.getLsbD_extractLsb', decide_eq_true hk, Bool.true_and, Nat.zero_add, getLsbD_sext8 hh (by omega),
      if_pos hk]
  rw [shiftInByte, hlow]

/-- What two instructions one after the other leave unchanged. -/
theorem frame_trans {written : List Reg} {s t u : State} (hst : Frame written s t) (htu : Frame written t u) :
    Frame written s u := by
  obtain ⟨hregs, ⟨hmem, hstored⟩, hepc, hhalted, hconfig⟩ := hst
  obtain ⟨hregs', ⟨hmem', hstored'⟩, hepc', hhalted', hconfig'⟩ := htu
  exact ⟨fun r hr => (hregs' r hr).trans (hregs r hr), ⟨fun a => (hmem' a).trans (hmem a), hstored'.trans hstored⟩,
    hepc'.trans hepc, hhalted'.trans hhalted, hconfig'.trans hconfig⟩

/-- Settles O25: SLBI moves up the byte LBI left at the bottom, and appends its own. -/
theorem twoInstructionsLoadAnyConstant : Obligations.TwoInstructionsLoadAnyConstant := by
  intro s rs hh ll
  obtain ⟨t, ht, hlbi, -, hst⟩ := writeBack_answers rs (sext8 hh) s
  obtain ⟨u, hu, hslbi, -, htu⟩ := writeBack_answers rs (shiftInByte (t.reg rs) ll) t
  exact ⟨t, u, ht, hu, by rw [hslbi, hlbi, shiftInByte_sext8, toNat_byte_append], frame_trans hst htu⟩

end Sys2Proof.Proofs
end

section
/-! SUPPORT. The jumps J, JR, JAL, JALR and RET (45_jumps.md). -/

namespace Sys2Proof.Proofs
open Sys2Proof.Machine

/-- R180: what a jump without a link answers, for a target computed before it. -/
theorem jumpTo_answers {target z : Word} (hz : target = z) (s : State) :
    ∃ t, jumpTo target s = .next t ∧ t.pc = z ∧ Frame [] s t :=
  ⟨_, jumpTo_eq target s, hz, frame_setPc ..⟩

/-- R23, R180: what a jump with a link answers; the target is a value, so the write of R7 cannot change it (D18). -/
theorem linkAndJump_answers {target z : Word} (hz : target = z) (s : State) :
    ∃ t, linkAndJump target s = .next t ∧ t.reg .r7 = trunc16 (s.pc.toNat + 2) ∧ t.pc = z ∧ Frame [.r7] s t :=
  ⟨_, linkAndJump_eq target s, (reg_setReg_same s .r7 s.nextPc).trans (nextPc_eq s), hz, frame_setReg_setPc ..⟩

/-- Settles O37: one target, without the link and with it. -/
theorem displacementJumpResults : Obligations.DisplacementJumpResults := by
  intro s d
  have htarget := displacementTarget_eq s d
  exact ⟨⟨rfl, jumpTo_answers htarget s⟩, rfl, linkAndJump_answers htarget s⟩

/-- Settles O38: the target is computed from the state before the jump, so JALR R7 goes by the old R7. -/
theorem registerJumpResults : Obligations.RegisterJumpResults := by
  intro s rs i
  have htarget := registerTarget_eq s rs i
  exact ⟨⟨rfl, jumpTo_answers htarget s⟩, ⟨rfl, linkAndJump_answers htarget s⟩, rfl, jumpTo_answers rfl s⟩

end Sys2Proof.Proofs
end

section
/-! SUPPORT. HALT, NOP, SIIC and RTI, and that no other instruction halts the machine (46_special.md). -/

namespace Sys2Proof.Proofs
open Sys2Proof.Machine

/-! ## What halts the machine (R190, R238) -/

/-- R190: every instruction but HALT leaves the halted flag as it was. -/
theorem exec_halted_of_ne_halt {i : Instr} {s t : State} (hi : i ≠ .halt) (h : exec i s = .next t) :
    t.halted = s.halted := by
  rcases exec_next_cases h with ⟨_, _, -, _, rfl⟩ | ⟨-, _, rfl⟩ | ⟨_, _, _, -, -, rfl⟩ |
    ⟨_, _, _, -, -, rfl⟩ | ⟨-, -, rfl⟩ | ⟨rfl, -⟩
  · rfl
  · rfl
  · rfl
  · rfl
  · rfl
  · contradiction

/-- R190: from a running machine, only HALT halts. -/
theorem exec_halted_iff {i : Instr} {s t : State} (hs : s.halted = false) (h : exec i s = .next t) :
    t.halted = true ↔ i = .halt := by
  refine ⟨fun ht => ?_, fun hi => ?_⟩
  · by_contra hi
    rw [exec_halted_of_ne_halt hi h, hs] at ht
    contradiction
  · subst hi
    cases h
    rfl

/-- Settles O51: a state that fetches is running, and the step executes the word it fetched. -/
theorem onlyHaltHalts : Obligations.OnlyHaltHalts := by
  intro s t w hfetch hstep
  obtain ⟨hrun, -⟩ := fetch_eq_next.mp hfetch
  obtain ⟨w', hfetch', hexec⟩ := step_eq_next.mp hstep
  obtain rfl : w = w' := by simpa [hfetch] using hfetch'
  exact exec_halted_iff hrun hexec

/-! ## The opcodes whose bits 10:0 are ignored (R70) -/

/-- R70: where every bit below the opcode is a don't-care bit, the opcode alone makes a word that instruction. -/
theorem decodeWord_of_opcode {i : Instr} {w : Word} (hi : dontCareBits i = 0x07FF#16)
    (hw : opcodeField w = opcodeField (encode i)) : decodeWord w = i := by
  have hbits : dontCareBits (decodeWord w) = 0x07FF#16 := by rw [dontCareBits_congr hw, decodeWord_encode, hi]
  have hencode : encode i = encode i &&& ~~~0x07FF#16 := by
    have h := encode_decodeWord (encode i)
    rwa [decodeWord_encode, hi] at h
  calc decodeWord w = decodeWord (encode (decodeWord w)) := (decodeWord_encode _).symm
    _ = decodeWord (w &&& ~~~0x07FF#16) := by rw [encode_decodeWord, hbits]
    _ = decodeWord (encode i) := by rw [← encodeBare_of_opcode hw, encodeBare_of_opcode rfl, ← hencode]
    _ = i := decodeWord_encode i

/-! ## HALT and NOP (R190, R191) -/

/-- Settles O40: HALT answers `stopMachine`, which halts, and a halted machine has no step. -/
theorem haltResult : Obligations.HaltResult := by
  intro s
  exact ⟨rfl, fun x => decodeWord_of_opcode rfl (opcode_encodeJ 0b00000#5 x), stopMachine s, execHalt_eq s, rfl,
    nextPc_eq s, fun _ _ => rfl, ⟨fun _ => rfl, rfl⟩, rfl, rfl, fun _ => step_ne_next_of_halted rfl, if_pos rfl⟩

/-- Settles O41: both are a jump to the next instruction, RTI where the optional part is not built. -/
theorem nopResult : Obligations.NopResult := by
  intro s
  refine ⟨fun x => ⟨decodeWord_of_opcode rfl (opcode_encodeJ 0b00001#5 x),
    decodeWord_of_opcode rfl (opcode_encodeJ 0b00011#5 x)⟩, jumpTo_answers (nextPc_eq s) s, fun hexc => ?_⟩
  rw [exec_rti_eq, hexc]
  exact jumpTo_answers (nextPc_eq s) s

/-! ## SIIC without the optional part, RTI with it (R194, R195) -/

/-- Settles O43: SIIC asks for the optional part before it does anything. -/
theorem siicIsRefusedWithoutTheOptionalPart : Obligations.SiicIsRefusedWithoutTheOptionalPart := by
  intro s hexc
  change execSiic s = _
  rw [execSiic_eq, hexc]
  rfl

/-- Settles O44: RTI is a jump to EPC. -/
theorem rtiReturnsToEpc : Obligations.RtiReturnsToEpc := by
  intro s hexc
  rw [exec_rti_eq, hexc]
  exact ⟨rfl, jumpTo_answers rfl s⟩

end Sys2Proof.Proofs
end

section
/-! SUPPORT. SIIC, the handler it calls, and the return from it (60_exceptions.md R203 to R206). -/

namespace Sys2Proof.Proofs
open Sys2Proof.Machine

/-- What no instruction of a body changes is after the body what it was before it. -/
theorem execAll_keeps {α : Type} {f : State → α} {body : List Instr}
    (hbody : ∀ i ∈ body, ∀ {s t : State}, exec i s = .next t → f t = f s) {s t : State}
    (h : execAll body s = .next t) : f t = f s := by
  induction body generalizing s with
  | nil => cases h; rfl
  | cons i rest ih =>
    obtain ⟨hi, hrest⟩ := List.forall_mem_cons.mp hbody
    obtain ⟨m, hm, h⟩ := execAll_cons_eq_next.mp h
    exact (ih hrest h).trans (hi hm)

/-- R32, R202: a body without a SIIC leaves EPC as it was. -/
theorem execAll_keeps_epc {body : List Instr} (hbody : Instr.siic ∉ body) {s t : State}
    (h : execAll body s = .next t) : t.epc = s.epc :=
  execAll_keeps (fun _ hi _ _ => exec_epc_of_ne_siic (ne_of_mem_of_not_mem hi hbody)) h

/-- No instruction changes the parameters, so no body does (R231). -/
theorem execAll_keeps_config {body : List Instr} {s t : State} (h : execAll body s = .next t) :
    t.config = s.config :=
  execAll_keeps (fun _ _ _ _ => exec_config) h

/-- Settles O45: SIIC leaves the address after it in EPC, the handler keeps EPC, and RTI jumps there. -/
theorem handlerReturnsAfterTheSiic : Obligations.HandlerReturnsAfterTheSiic := by
  intro s t u handler hexc hhandler ht hu
  obtain ⟨-, rfl⟩ := exec_siic_eq_next.mp ht
  have hconfig : u.config.excSupport = true := by rw [execAll_keeps_config hu, takeIllegalOp_config, hexc]
  have hepc : u.epc = trunc16 (s.pc.toNat + 2) := by
    rw [execAll_keeps_epc hhandler hu, takeIllegalOp_epc, nextPc_eq]
  obtain ⟨-, v, hv, hpc, hframe⟩ := rtiReturnsToEpc u hconfig
  exact ⟨v, hv, hpc, hpc.trans hepc, hframe⟩

/-- Settles O42: where the optional part is built SIIC answers `takeIllegalOp`, which writes EPC and the pc only. -/
theorem siicTakesIllegalOp : Obligations.SiicTakesIllegalOp := fun s hexc =>
  ⟨takeIllegalOp s, exec_siic_eq_next.mpr ⟨hexc, rfl⟩, nextPc_eq s, rfl, fun _ _ => rfl, ⟨fun _ => rfl, rfl⟩, rfl, rfl⟩

end Sys2Proof.Proofs
end

section
/-! SUPPORT. Reset and every launch: where they begin, and that they meet the invariant (10_state.md section 9,
70_reset_and_hazards.md R230, R231). -/

namespace Sys2Proof.Proofs
open Sys2Proof.Machine

/-- Settles O56: a launch takes the pc and the halted flag from none of its arguments, and reset is a launch (R30). -/
theorem launchBeginsAtZeroRunning : Obligations.LaunchBeginsAtZeroRunning :=
  ⟨rfl, rfl, fun _ _ _ _ => ⟨rfl, rfl⟩⟩

/-- At a launch nothing is stored yet, so what the invariant asks for is a canonical image and an even EPC. -/
theorem inv_launch (c : Config) (regs : Vector Word 8) {epc : Word} {image : Memory} (himage : Memory.wf image)
    (hepc : isOdd epc = false) : Inv (State.launch c regs epc image) where
  mem_wf := himage
  stored_wf := ⟨List.Pairwise.nil, nofun⟩
  stored_has_value := nofun
  stored_pairs _ _ := rfl
  epc_even := hepc

/-- Settles O57: reset is the launch with no image and EPC zero. -/
theorem resetMeetsTheInvariant : Obligations.ResetMeetsTheInvariant :=
  ⟨inv_launch _ _ ⟨List.Pairwise.nil, nofun⟩ (by decide), fun c regs _ _ => inv_launch c regs⟩

end Sys2Proof.Proofs
end

section
/-! SUPPORT. The step check by check (00_scope.md R7), the word a host lays down for it, and that a stored word is
never executed (20_memory.md R53). -/

namespace Sys2Proof.Proofs
open Sys2Proof.Machine

/-! ## The fetch, check by check, and the step it leads to -/

section Step
variable {s : State}

theorem step_of_fetch {w : Word} (h : fetch s = .next w) : step s = exec (decodeWord w) s := by
  rw [step, h, andThen_next]

theorem step_of_fetch_fault {e : Fault} (h : fetch s = .fault e) : step s = .fault e := by
  rw [step, h, andThen_fault]

theorem step_of_fetch_refused {e : Refusal} (h : fetch s = .refused e) : step s = .refused e := by
  rw [step, h, andThen_refused]

theorem fetch_odd (hrun : s.halted = false) (hpc : isOdd s.pc = true) :
    fetch s = .fault (.misalignedFetch s.pc) := by
  simp [fetch, hrun, hpc]

theorem fetch_stored (hrun : s.halted = false) (hpc : isOdd s.pc = false)
    (h : AddrSet.has s.stored s.pc.toNat = true ∨ AddrSet.has s.stored (s.pc.toNat + 1) = true) :
    fetch s = .refused (.selfModifyingCode s.pc) := by
  simp [fetch, hrun, hpc, h]

theorem fetch_none (hrun : s.halted = false) (hpc : isOdd s.pc = false)
    (h0 : AddrSet.has s.stored s.pc.toNat = false) (h1 : AddrSet.has s.stored (s.pc.toNat + 1) = false)
    (hw : s.word s.pc = none) : fetch s = .fault (.uninitMemory s.pc) := by
  simp [fetch, hrun, hpc, h0, h1, hw]

theorem fetch_some {w : Word} (hrun : s.halted = false) (hpc : isOdd s.pc = false)
    (h0 : AddrSet.has s.stored s.pc.toNat = false) (h1 : AddrSet.has s.stored (s.pc.toNat + 1) = false)
    (hw : s.word s.pc = some w) : fetch s = .next w :=
  fetch_eq_next.mpr ⟨hrun, hpc, by rw [h0, h1, Bool.or_false], hw⟩

end Step

/-- Settles O7: where a check of the fetch fails the step ends as the fetch does, and where all pass it executes. -/
theorem stepRunsTheDecodedInstruction : Obligations.StepRunsTheDecodedInstruction := by
  refine fun s => ⟨fun hhalted _ => step_ne_next_of_halted hhalted, fun hrun hpc => ?_, fun hrun hpc hstored => ?_,
    fun hrun hpc h0 h1 hnone => ?_, fun lo hi hrun hpc h0 h1 hlo hhi => ?_⟩
  · exact step_of_fetch_fault (fetch_odd hrun hpc)
  · exact step_of_fetch_refused (fetch_stored hrun hpc hstored)
  · exact step_of_fetch_fault (fetch_none hrun hpc h0 h1 (word_eq_none hnone))
  · exact step_of_fetch (fetch_some hrun hpc h0 h1 (word_eq_some hlo hhi))

/-! ## The word a host lays down (R239) -/

/-- A word's number read back at its own width is the word. -/
theorem ofNat_toNat_mod (w : Word) : BitVec.ofNat 16 (w.toNat % 2 ^ 16) = w := by
  rw [Nat.mod_eq_of_lt w.isLt, BitVec.ofNat_toNat, BitVec.setWidth_eq]

theorem decodeTableWord_toNat (w : Word) : decodeTableWord 16 w.toNat = some (decodeWord w) := by
  rw [decodeTableWord, ofNat_toNat_mod, decode_two, wordOfBytes_bytes]

theorem withFetchWord_toNat (s : State) (w : Word) : s.withFetchWord 16 w.toNat = s.placeForFetch w := by
  rw [State.withFetchWord, ofNat_toNat_mod]

/-- Settles O8: the hook is `placeForFetch` of the word, which is what the next step fetches. -/
theorem placedWordIsRunNext : Obligations.PlacedWordIsRunNext := by
  intro s w
  rw [withFetchWord_toNat]
  exact ⟨decodeTableWord_toNat w, step_of_fetch (fetch_placeForFetch s w), rfl, rfl, rfl, and_even_eq⟩

/-! ## Stored words (R53) -/

/-- R45: what a run has stored to stays stored to, by induction on its steps. -/
theorem run_keeps_stored {k : Nat} {s t : State} {a : Nat} (h : run k s = .next t)
    (ha : AddrSet.has s.stored a = true) : AddrSet.has t.stored a = true := by
  induction k generalizing s with
  | zero => cases h; exact ha
  | succ k ih =>
    obtain ⟨m, hm, h⟩ := run_succ_eq_next.mp h
    obtain ⟨-, -, hstored⟩ := stepsKeepConfigValuesAndStored s m hm
    exact ih h (hstored a ha)

/-- An ST or STU that answers stored at an even address, which is in `Stored` after it. -/
theorem exec_store_has {s t : State} {rd rs : Reg} {i : BitVec 5}
    (h : exec (.st rd rs i) s = .next t ∨ exec (.stu rd rs i) s = .next t) :
    isOdd (effectiveAddress s rs i) = false ∧ AddrSet.has t.stored (effectiveAddress s rs i).toNat = true := by
  rcases h with h | h
  · obtain ⟨heven, rfl⟩ := exec_st_eq_next.mp h
    exact ⟨heven, (storeWord_has_both s _ (s.reg rd)).left⟩
  · obtain ⟨heven, rfl⟩ := exec_stu_eq_next.mp h
    exact ⟨heven, (storeWord_has_both s _ (s.reg rd)).left⟩

/-- Settles O53: the store put the address into `Stored`, the run keeps it there, and the fetch refuses it. -/
theorem storedWordsAreNeverExecuted : Obligations.StoredWordsAreNeverExecuted := by
  intro k s t rd rs i u hstore hk hrun hpc
  obtain ⟨heven, hstored⟩ := exec_store_has hstore
  rw [← effectiveAddress_eq] at hpc
  rw [← hpc] at heven hstored
  exact step_of_fetch_refused (fetch_stored hrun heven (.inl (run_keeps_stored hk hstored)))

end Sys2Proof.Proofs
end

section
/-! SUPPORT. LD of the instruction being fetched (20_memory.md R52), and the data accesses at an odd address (R46). -/

namespace Sys2Proof.Proofs
open Sys2Proof.Machine

/-- R52: the word a state fetches is the word a data access at its pc reads. -/
theorem memRead_pc_of_fetch {s : State} {w : Word} (h : fetch s = .next w) : memRead s s.pc = .next w := by
  obtain ⟨-, hpc, -, hw⟩ := fetch_eq_next.mp h
  exact memRead_eq_next.mpr ⟨hpc, hw⟩

/-- Settles O34: the load's data access is at the pc. -/
theorem loadOfCodeGivesTheInstructionWord : Obligations.LoadOfCodeGivesTheInstructionWord := by
  intro s rd rs i w hfetch hea
  apply exec_ld_of_memRead
  rw [hea]
  exact memRead_pc_of_fetch hfetch

/-- Settles O29: each of the three makes its data access at the effective address before anything else. -/
theorem oddDataAddressFaults : Obligations.OddDataAddressFaults := by
  intro s rd rs i ea hea ha
  obtain rfl : ea = effectiveAddress s rs i := hea.trans (effectiveAddress_eq s rs i).symm
  have hodd : isOdd (effectiveAddress s rs i) = true := (isOdd_iff _).mpr ha
  exact ⟨exec_ld_of_memRead_fault (memRead_odd hodd), (execSt_eq ..).trans (if_pos hodd),
    (execStu_eq ..).trans (if_pos hodd)⟩

end Sys2Proof.Proofs
end

section
/-! SUPPORT. Words of the spec's test vectors (95_test_vectors.md 2.1), and any word decoded and encoded again
(30_encoding.md sections 3 and 4). -/

namespace Sys2Proof.Proofs
open Sys2Proof.Machine

/-- Settles O1: the decoder evaluated at the fourteen words. -/
theorem sampleWordsDecode : Obligations.SampleWordsDecode := by
  unfold Obligations.SampleWordsDecode
  decide

/-- Settles O3, from the inverse of the decoder line by line (`encode_of_decodeWord`). -/
theorem encodeAfterDecodeClearsDontCareBits : Obligations.EncodeAfterDecodeClearsDontCareBits :=
  encode_decodeWord

end Sys2Proof.Proofs
end
